-- ==== Sys2Proof/Word.lean ====
section
/-! DEFINITION. The words of the Sprint-Challenge 8-bit core: the byte and the register index. -/

namespace Sys2Proof

/-- A register value, memory cell, operand byte or address: an unsigned number in 0..255
(00_scope.md R11, 20_memory.md R51). -/
abbrev Byte := BitVec 8

/-- The index of a general register, 0..7 (10_state.md R21). -/
abbrev Reg := Fin 8

/-- R7, the stack pointer (10_state.md R23). -/
abbrev spReg : Reg := 7

/-- R6, the bookkeeping register of CALL and RET (10_state.md R24). -/
abbrev linkReg : Reg := 6

end Sys2Proof
end

