-- ==== Sys2Proof/Config.lean ====
section
/-! DEFINITION. What is fixed for the machine: the constants of 00_scope.md R6, what an unlisted
memory cell reads as, and the parameters the spec leaves open (00_scope.md R8). -/

namespace Sys2Proof.Config

/-- The number of memory cells (00_scope.md R6). -/
abbrev memSize : Nat := 256

/-- The reset value of R7 (00_scope.md R6, 10_state.md R40). -/
def spReset : Byte := 0xF4

/-- The reset value of the PC (00_scope.md R6, 10_state.md R40). -/
def pcReset : Byte := 0x00

/-- What a memory cell that the list does not hold reads as. DESIGN CHOICE, unsafe (log 3): the spec
leaves RESET_MEM free; other contents are listed cells (the memory `State.resetWith` takes). -/
def unlistedByte : Byte := 0x00

end Sys2Proof.Config

namespace Sys2Proof

/-- The open parameters of a RESET (00_scope.md R8): "A model takes each as an argument (a draw, under no
law)". RESET_MEM is not drawn at a RESET, which leaves memory as it is (decision D23): it is an argument of
`State.resetWith` beside these. IR and the operand latches have no reset value in 10_state.md R40, so they stand here too. -/
structure ResetParams where
  /-- RESET_GPR, the reset values of R0 to R6 (decision D13). -/
  gpr : Vector Byte 7
  /-- RESET_FL, any 3-bit value (decision D12). -/
  fl  : BitVec 3
  /-- IR before the first fetch (10_state.md R40: no value). -/
  ir  : Byte
  /-- The operand latches before the first fetch (10_state.md R40: no value). -/
  op1 : Byte
  op2 : Byte
  deriving DecidableEq, Repr

/-- The values `State.reset` names for the open parameters. DESIGN CHOICE, unsafe (logs 1 to 4): the
spec gives none, and 10_state.md R40 says that no claim may rest on one. -/
def ResetParams.chosen : ResetParams where
  gpr := #v[0, 0, 0, 0, 0, 0, 0]
  fl  := 0b000
  ir  := 0
  op1 := 0
  op2 := 0

end Sys2Proof
end

