-- ==== Sys2Proof/Machine/State.lean ====
section
/-! DEFINITION. The state of the core as plain data (10_state.md), the reasons a model step can stop, and
the state after reset (10_state.md R40). -/

namespace Sys2Proof.Machine

/-- RUN_STATE (10_state.md R34). -/
inductive RunState where
  /-- The reset and loading state. -/
  | idle
  | running
  /-- The clean end, entered by HLT (40_cycle.md R98). -/
  | halted
  /-- The fatal end, entered by a fault (60_exceptions.md R182). -/
  | faulted
  deriving DecidableEq, Repr

/-- FAULT_CAUSE (60_exceptions.md R181). -/
inductive FaultCause where
  /-- NONE, code 0: the value at reset. -/
  | noFault
  | illegalOpcode
  | operandRange
  | registerIndex
  | divideByZero
  | stackPushRange
  | stackPopRange
  | pcRange
  deriving DecidableEq, Repr

/-- The fault record FAULT_CAUSE, FAULT_PC, FAULT_IR, FAULT_INFO (10_state.md R35). -/
structure FaultRecord where
  cause : FaultCause
  pc    : Byte
  ir    : Byte
  info  : BitVec 9
  deriving DecidableEq, Repr

/-- The record at reset: all fields 0 (10_state.md R40). -/
def FaultRecord.zero : FaultRecord := ⟨.noFault, 0, 0, 0⟩

/-- The memory: (address, byte) pairs, addresses strictly rising, no byte listed that equals
`Config.unlistedByte` (10_state.md R39, 20_memory.md R51; log 3). -/
abbrev Memory := List Host.Cell

/-- Everything the spec gives the machine (10_state.md R37, R42; IR and the operand latches of R32 and R33
stand in it too, log 4). -/
structure State where
  /-- x[0] .. x[7]; x[7] is SP, x[6] the bookkeeping register (10_state.md R21, R23, R24). -/
  regs     : Vector Byte 8
  /-- The address of the next opcode byte (10_state.md R26). -/
  pc       : Byte
  /-- FL: L in bit 2, G in bit 1, E in bit 0 (10_state.md R30). -/
  fl       : BitVec 3
  /-- IR (10_state.md R32). -/
  ir       : Byte
  /-- The operand latches (10_state.md R33). -/
  op1      : Byte
  op2      : Byte
  /-- The 256 cells (10_state.md R39). -/
  mem      : Memory
  /-- RUN_STATE (10_state.md R34). -/
  runState : RunState
  /-- The fault record (10_state.md R35). -/
  fault    : FaultRecord
  /-- OUT, oldest byte first (10_state.md R36). -/
  out      : List Byte
  deriving DecidableEq, Repr

/-- The reasons the MODEL stops with a fault: there are none. Every fault of this hardware is a
transition to RUN_STATE = FAULTED that 60_exceptions.md R182 describes whole, so it is a next state
(log 9). Safe: nothing is cut off. -/
inductive Fault where
  deriving DecidableEq, Repr

/-- The reasons the model has no meaning to give. -/
inductive Refusal where
  /-- Raised by `exec` for an instruction without a meaning yet, by its mnemonic. No arm raises it now.
  Safe: no claim about the instruction could be proved. -/
  | notModelled (mnemonic : String)
  deriving DecidableEq, Repr

/-- The state after RESET for any choice of the open parameters, with the cells holding `mem`, RESET_MEM
(10_state.md R40, 70_reset_and_hazards.md R211). -/
def State.resetWith (p : ResetParams) (mem : Memory) : State where
  regs     := p.gpr.push Config.spReset
  pc       := Config.pcReset
  fl       := p.fl
  ir       := p.ir
  op1      := p.op1
  op2      := p.op2
  mem      := mem
  runState := .idle
  fault    := .zero
  out      := []

/-- The state after reset with the values the log names for the open parameters (logs 1 to 4). -/
def State.reset : State := State.resetWith ResetParams.chosen []

end Sys2Proof.Machine
end

