-- ==== Sys2Proof/Machine/Ops.lean ====
section
/-! DEFINITION. The operations all instructions share: memory, registers, the stack primitives, the
sequential advance, and taking a fault (60_exceptions.md R182). -/

namespace Sys2Proof.Machine

/-! ## Memory (20_memory.md R52) -/

/-- The canonical form: addresses strictly rising and inside 0..255, no listed byte equal to what an
unlisted cell reads as. -/
abbrev Memory.wf (m : Memory) : Prop :=
  m.Pairwise (fun c d => c.1 < d.1) ∧ ∀ c ∈ m, c.1 < Config.memSize ∧ c.2 ≠ Config.unlistedByte

/-- MemRead(a, 1) (20_memory.md R52). -/
def Memory.read : Memory → Nat → Byte
  | [], _ => Config.unlistedByte
  | (b, v) :: m, a => if b = a then v else Memory.read m a

/-- Put a cell before the first one with a higher address. -/
def Memory.insert (a : Nat) (v : Byte) : Memory → Memory
  | [] => [(a, v)]
  | (b, w) :: m => if b < a then (b, w) :: Memory.insert a v m else (a, v) :: (b, w) :: m

/-- MemWrite(a, 1, v) (20_memory.md R52): the old cell goes, and the new one is listed unless it equals
what an unlisted cell reads as. -/
def Memory.write (m : Memory) (a : Nat) (v : Byte) : Memory :=
  let rest := m.filter fun c => c.1 != a
  if v = Config.unlistedByte then rest else Memory.insert a v rest

/-! ## Reading and writing the state (00_scope.md R12) -/

/-- `x[r]`. No register is hardwired (10_state.md R22). -/
def State.reg (s : State) (r : Reg) : Byte := s.regs[r.val]

/-- `x[r] <- v` (10_state.md R22, R25). -/
def State.setReg (s : State) (r : Reg) (v : Byte) : State := { s with regs := s.regs.set r.val v }

/-- SP, register R7 (10_state.md R23). -/
def State.sp (s : State) : Byte := s.reg spReg

/-- `pc <- a` (00_scope.md R12). -/
def State.setPc (s : State) (a : Byte) : State := { s with pc := a }

/-- `FL <- f`; only CMP does this (10_state.md R28). -/
def State.setFl (s : State) (f : BitVec 3) : State := { s with fl := f }

/-- `emit(v)`: append to OUT (10_state.md R36). -/
def State.emit (s : State) (v : Byte) : State := { s with out := s.out ++ [v] }

/-- `MemRead(a, 1)` at an 8-bit address (20_memory.md R52). -/
def State.load (s : State) (a : Byte) : Byte := s.mem.read a.toNat

/-- `MemWrite(a, 1, v)` at an 8-bit address (20_memory.md R52). -/
def State.store (s : State) (a v : Byte) : State := { s with mem := s.mem.write a.toNat v }

/-- `RUN_STATE <- HALTED` (40_cycle.md R98). -/
def State.halt (s : State) : State := { s with runState := .halted }

/-- Load IR and the operand latches with the bytes a step fetched (40_cycle.md R97, R101). A latch whose
operand was not fetched keeps its byte; no rule reads it (DESIGN CHOICE, log 4). -/
def State.latch (s : State) (ir : Byte) (ops : List Byte) : State :=
  { s with ir := ir, op1 := ops.getD 0 s.op1, op2 := ops.getD 1 s.op2 }

/-! ## Faults (60_exceptions.md) -/

/-- What `raise Fault(cause, info)` carries (00_scope.md R12, 60_exceptions.md R183). -/
structure Raise where
  cause : FaultCause
  info  : BitVec 9
  deriving DecidableEq, Repr

/-- What a handler does: it completes with every write made, or raises. -/
abbrev Result := Except Raise State

/-- Taking a fault (60_exceptions.md R182), from the state BEFORE the step's writes: nothing but RUN_STATE
and the fault record changes. FAULT_IR is the IR that fetch loaded. There is no return from it (R185). -/
def State.enterFault (s : State) (r : Raise) : State :=
  { s with runState := .faulted, fault := ⟨r.cause, s.pc, s.ir, r.info⟩ }

/-- Commit (40_cycle.md R105): a step that completes makes all its writes at once, a step that raises none
of them (60_exceptions.md R182). `s` is the state before the handler's writes. -/
def commit (s : State) : Result → Host.Outcome State Fault Refusal
  | .ok t => .next t
  | .error r => .next (s.enterFault r)

/-! ## The program counter -/

/-- The PC as a number that may have passed 255, or PC_RANGE with that number (40_cycle.md R104,
43_control_flow.md R161, R164). -/
def pcOrRange (next : Nat) : Except Raise Byte :=
  if next > 255 then .error ⟨.pcRange, BitVec.ofNat 9 next⟩ else .ok (BitVec.ofNat 8 next)

/-- The sequential advance of an instruction with `n` operand bytes, `pc <- pc + n + 1`, which faults above
255 (40_cycle.md R104). -/
def advance (n : Nat) (s : State) : Result :=
  match pcOrRange (s.pc.toNat + n + 1) with
  | .ok a => .ok (s.setPc a)
  | .error r => .error r

/-- A handler with P = 0: its effect, then the sequential advance (40_cycle.md R103, R104). -/
def thenAdvance (n : Nat) : Result → Result
  | .ok t => advance n t
  | .error r => .error r

/-! ## Stack primitives (41_register_stack.md) -/

/-- Push(i) (41_register_stack.md R116): the register is read after SP is decremented. -/
def push (i : Reg) (s : State) : Result :=
  if s.sp = 0 then .error ⟨.stackPushRange, 0⟩
  else
    let t := s.setReg spReg (s.sp - 1)
    .ok (t.store t.sp (t.reg i))

/-- Pop(i) (41_register_stack.md R117): SP is read again after x[i] is written. -/
def pop (i : Reg) (s : State) : Result :=
  let t := s.setReg i (s.load s.sp)
  if t.sp = 255 then .error ⟨.stackPopRange, 255⟩
  else .ok (t.setReg spReg (t.sp + 1))

end Sys2Proof.Machine
end

