-- ==== Sys2Proof/Machine/Flags.lean ====
section
/-! DEFINITION. The flags register (10_state.md R28 to R31): what CMP writes and what the branches read. -/

namespace Sys2Proof.Machine

/-- FL = L (10_state.md R30; UNVERIFIED, log 6). -/
abbrev flagL : BitVec 3 := 0b100
/-- FL = G (10_state.md R30; UNVERIFIED, log 6). -/
abbrev flagG : BitVec 3 := 0b010
/-- FL = E (10_state.md R30; UNVERIFIED, log 6). -/
abbrev flagE : BitVec 3 := 0b001

/-- The flags of comparing `a` with `b`, unsigned (42_alu.md R144). -/
def cmpFlags (a b : Byte) : BitVec 3 :=
  if a.toNat < b.toNat then flagL else if a.toNat > b.toNat then flagG else flagE

/-- FL.E, the one bit that JEQ and JNE read (10_state.md R28, R31). -/
def State.flE (s : State) : Bool := s.fl.getLsbD 0

end Sys2Proof.Machine
end

