-- ==== Sys2Proof/Machine/Operands.lean ====
section
/-! DEFINITION. The operand forms of 30_encoding.md R73 and the validation of register operands
(40_cycle.md R102). Each form takes the handler of its instruction and commits it. -/

namespace Sys2Proof.Machine

/-- A register operand byte: the whole byte, unmasked; above 7 it raises REGISTER_INDEX with the byte
(30_encoding.md R74, 40_cycle.md R102, 60_exceptions.md R183). -/
def regOperand (b : Byte) : Except Raise Reg :=
  if h : b.toNat < 8 then .ok ⟨b.toNat, h⟩ else .error ⟨.registerIndex, b.setWidth 9⟩

/-- Format F0: no operand (30_encoding.md R73). -/
def formF0 (handler : State → Result) (s : State) : Host.Outcome State Fault Refusal :=
  commit s (handler s)

/-- Format F1R: op1 is a register index, validated before the handler runs (30_encoding.md R73). -/
def formF1R (ra : Byte) (handler : Reg → State → Result) (s : State) : Host.Outcome State Fault Refusal :=
  match regOperand ra with
  | .error r => commit s (.error r)
  | .ok a => commit s (handler a s)

/-- Format F2RR: op1 and op2 are register indices, op1 validated first (30_encoding.md R73, 40_cycle.md
R102). -/
def formF2RR (ra rb : Byte) (handler : Reg → Reg → State → Result) (s : State) :
    Host.Outcome State Fault Refusal :=
  match regOperand ra with
  | .error r => commit s (.error r)
  | .ok a =>
    match regOperand rb with
    | .error r => commit s (.error r)
    | .ok b => commit s (handler a b s)

/-- Format F2RI: op1 is a register index, op2 an unsigned literal that is never checked (30_encoding.md R73,
R75). -/
def formF2RI (ra imm : Byte) (handler : Reg → Byte → State → Result) (s : State) :
    Host.Outcome State Fault Refusal :=
  match regOperand ra with
  | .error r => commit s (.error r)
  | .ok a => commit s (handler a imm s)

end Sys2Proof.Machine
end

