-- ==== Sys2Proof/Machine/Alu.lean ====
section
/-! DEFINITION. The twelve ALU instructions (42_alu.md). Each result is computed exactly on integers and
then reduced mod 256 (42_alu.md R132). -/

namespace Sys2Proof.Machine

/-! ## Results -/

/-- 42_alu.md R133. -/
def aluAdd (x y : Byte) : Byte := BitVec.ofNat 8 (x.toNat + y.toNat)
/-- 42_alu.md R134. -/
def aluSub (x y : Byte) : Byte := BitVec.ofInt 8 ((x.toNat : Int) - y.toNat)
/-- 42_alu.md R135. -/
def aluMul (x y : Byte) : Byte := BitVec.ofNat 8 (x.toNat * y.toNat)
/-- 42_alu.md R136, for a divisor that is not 0. -/
def aluDiv (x y : Byte) : Byte := BitVec.ofNat 8 (x.toNat / y.toNat)
/-- 42_alu.md R137, for a divisor that is not 0. -/
def aluMod (x y : Byte) : Byte := BitVec.ofNat 8 (x.toNat % y.toNat)
/-- 42_alu.md R138. -/
def aluAnd (x y : Byte) : Byte := x &&& y
/-- 42_alu.md R139. -/
def aluOr (x y : Byte) : Byte := x ||| y
/-- 42_alu.md R140. -/
def aluXor (x y : Byte) : Byte := x ^^^ y
/-- 42_alu.md R141. -/
def aluNot (x : Byte) : Byte := BitVec.ofNat 8 (255 - x.toNat)
/-- 42_alu.md R142: the amount is the whole of `y`. -/
def aluShl (x y : Byte) : Byte := BitVec.ofNat 8 (x.toNat <<< y.toNat)
/-- 42_alu.md R143: logical, the amount is the whole of `y`. -/
def aluShr (x y : Byte) : Byte := BitVec.ofNat 8 (x.toNat >>> y.toNat)

/-! ## Handlers -/

/-- Read both operands, write the result into the first register (42_alu.md R131), advance past two operand
bytes. -/
def aluWrite (f : Byte → Byte → Byte) (a b : Reg) (s : State) : Result :=
  thenAdvance 2 (.ok (s.setReg a (f (s.reg a) (s.reg b))))

/-- As `aluWrite`, but a divisor register that holds 0 raises DIVIDE_BY_ZERO with its index (42_alu.md R136,
R137; 60_exceptions.md R183). -/
def aluDivide (f : Byte → Byte → Byte) (a b : Reg) (s : State) : Result :=
  if s.reg b = 0 then .error ⟨.divideByZero, BitVec.ofNat 9 b.val⟩ else aluWrite f a b s

/-! ## Meanings -/

/-- ADD (42_alu.md R133). -/
def execAdd (ra rb : Byte) (s : State) : Host.Outcome State Fault Refusal := formF2RR ra rb (aluWrite aluAdd) s
/-- SUB (42_alu.md R134). -/
def execSub (ra rb : Byte) (s : State) : Host.Outcome State Fault Refusal := formF2RR ra rb (aluWrite aluSub) s
/-- MUL (42_alu.md R135). -/
def execMul (ra rb : Byte) (s : State) : Host.Outcome State Fault Refusal := formF2RR ra rb (aluWrite aluMul) s
/-- DIV (42_alu.md R136). -/
def execDiv (ra rb : Byte) (s : State) : Host.Outcome State Fault Refusal := formF2RR ra rb (aluDivide aluDiv) s
/-- MOD (42_alu.md R137). -/
def execMod (ra rb : Byte) (s : State) : Host.Outcome State Fault Refusal := formF2RR ra rb (aluDivide aluMod) s
/-- AND (42_alu.md R138). -/
def execAnd (ra rb : Byte) (s : State) : Host.Outcome State Fault Refusal := formF2RR ra rb (aluWrite aluAnd) s
/-- OR (42_alu.md R139). -/
def execOr (ra rb : Byte) (s : State) : Host.Outcome State Fault Refusal := formF2RR ra rb (aluWrite aluOr) s
/-- XOR (42_alu.md R140). -/
def execXor (ra rb : Byte) (s : State) : Host.Outcome State Fault Refusal := formF2RR ra rb (aluWrite aluXor) s
/-- NOT (42_alu.md R141). -/
def execNot (ra : Byte) (s : State) : Host.Outcome State Fault Refusal :=
  formF1R ra (fun a t => thenAdvance 1 (.ok (t.setReg a (aluNot (t.reg a))))) s
/-- SHL (42_alu.md R142). -/
def execShl (ra rb : Byte) (s : State) : Host.Outcome State Fault Refusal := formF2RR ra rb (aluWrite aluShl) s
/-- SHR (42_alu.md R143). -/
def execShr (ra rb : Byte) (s : State) : Host.Outcome State Fault Refusal := formF2RR ra rb (aluWrite aluShr) s
/-- CMP (42_alu.md R144): only FL is written. -/
def execCmp (ra rb : Byte) (s : State) : Host.Outcome State Fault Refusal :=
  formF2RR ra rb (fun a b t => thenAdvance 2 (.ok (t.setFl (cmpFlags (t.reg a) (t.reg b))))) s

end Sys2Proof.Machine
end

