-- ==== Sys2Proof/Machine/Control.lean ====
section
/-! DEFINITION. HLT (40_cycle.md R99) and CALL, RET, JMP, JEQ and JNE (43_control_flow.md). -/

namespace Sys2Proof.Machine

/-- HLT (40_cycle.md R98, R99): the PC keeps the address of the HLT byte. R98 checks for HLT before decode;
the model reaches the same effect through dispatch (log 12). -/
def execHlt (s : State) : Host.Outcome State Fault Refusal :=
  formF0 (fun t => .ok t.halt) s

/-- CALL's handler, its statements in the order of 43_control_flow.md R161: the return address into R6, the
push, and the target read last. -/
def call (a : Reg) (s : State) : Result :=
  match pcOrRange (s.pc.toNat + 2) with
  | .error r => .error r
  | .ok returnTo =>
    match push linkReg (s.setReg linkReg returnTo) with
    | .error r => .error r
    | .ok t => .ok (t.setPc (t.reg a))

/-- CALL (43_control_flow.md R161). -/
def execCall (ra : Byte) (s : State) : Host.Outcome State Fault Refusal :=
  formF1R ra call s

/-- RET's handler: pop R6, then jump to it (43_control_flow.md R162). -/
def ret (s : State) : Result :=
  match pop linkReg s with
  | .error r => .error r
  | .ok t => .ok (t.setPc (t.reg linkReg))

/-- RET (43_control_flow.md R162). -/
def execRet (s : State) : Host.Outcome State Fault Refusal :=
  formF0 ret s

/-- JMP (43_control_flow.md R163). -/
def execJmp (ra : Byte) (s : State) : Host.Outcome State Fault Refusal :=
  formF1R ra (fun a t => .ok (t.setPc (t.reg a))) s

/-- A conditional jump: to x[a] if taken, else past the instruction's one operand byte (43_control_flow.md
R164, R165). -/
def branch (taken : Bool) (a : Reg) (s : State) : Result :=
  if taken then .ok (s.setPc (s.reg a)) else advance 1 s

/-- JEQ (43_control_flow.md R164). -/
def execJeq (ra : Byte) (s : State) : Host.Outcome State Fault Refusal :=
  formF1R ra (fun a t => branch t.flE a t) s

/-- JNE (43_control_flow.md R165). -/
def execJne (ra : Byte) (s : State) : Host.Outcome State Fault Refusal :=
  formF1R ra (fun a t => branch (!t.flE) a t) s

end Sys2Proof.Machine
end

