-- ==== Sys2Proof/Machine/RegStack.lean ====
section
/-! DEFINITION. LDI, PRN, PUSH and POP (41_register_stack.md). -/

namespace Sys2Proof.Machine

/-- LDI (41_register_stack.md R119). -/
def execLdi (ra imm : Byte) (s : State) : Host.Outcome State Fault Refusal :=
  formF2RI ra imm (fun a v t => thenAdvance 2 (.ok (t.setReg a v))) s

/-- PRN (41_register_stack.md R120). -/
def execPrn (ra : Byte) (s : State) : Host.Outcome State Fault Refusal :=
  formF1R ra (fun a t => thenAdvance 1 (.ok (t.emit (t.reg a)))) s

/-- PUSH (41_register_stack.md R121). -/
def execPush (ra : Byte) (s : State) : Host.Outcome State Fault Refusal :=
  formF1R ra (fun a t => thenAdvance 1 (push a t)) s

/-- POP (41_register_stack.md R122). -/
def execPop (ra : Byte) (s : State) : Host.Outcome State Fault Refusal :=
  formF1R ra (fun a t => thenAdvance 1 (pop a t)) s

end Sys2Proof.Machine
end

