-- ==== Sys2Proof/Syntax.lean ====
section
/-! DEFINITION. The 22 instructions of 30_encoding.md R76, one constructor a row of the opcode table. -/

namespace Sys2Proof

/-- An instruction with its operand bytes as they stand in memory (00_scope.md R13). A register operand
is the WHOLE operand byte (30_encoding.md R74); a byte above 7 names no register, which `WellFormed`
refuses and the meanings answer with REGISTER_INDEX (40_cycle.md R102). -/
inductive Instr where
  /-- Halt. Format F0 (40_cycle.md R99). -/
  | hlt
  /-- Load immediate. Format F2RI (41_register_stack.md R119). -/
  | ldi (ra imm : Byte)
  /-- Print register. Format F1R (41_register_stack.md R120). -/
  | prn (ra : Byte)
  /-- Push register. Format F1R (41_register_stack.md R121). -/
  | push (ra : Byte)
  /-- Pop into register. Format F1R (41_register_stack.md R122). -/
  | pop (ra : Byte)
  /-- Format F2RR (42_alu.md R133). -/
  | add (ra rb : Byte)
  /-- Format F2RR (42_alu.md R134). -/
  | sub (ra rb : Byte)
  /-- Format F2RR (42_alu.md R135). -/
  | mul (ra rb : Byte)
  /-- Format F2RR (42_alu.md R136). -/
  | div (ra rb : Byte)
  /-- Format F2RR (42_alu.md R137). -/
  | mod (ra rb : Byte)
  /-- Format F2RR (42_alu.md R138). -/
  | and (ra rb : Byte)
  /-- Format F2RR (42_alu.md R139). -/
  | or (ra rb : Byte)
  /-- Format F2RR (42_alu.md R140). -/
  | xor (ra rb : Byte)
  /-- Format F1R (42_alu.md R141). -/
  | not (ra : Byte)
  /-- Format F2RR (42_alu.md R142). -/
  | shl (ra rb : Byte)
  /-- Format F2RR (42_alu.md R143). -/
  | shr (ra rb : Byte)
  /-- Compare. Format F2RR (42_alu.md R144). -/
  | cmp (ra rb : Byte)
  /-- Call subroutine. Format F1R (43_control_flow.md R161). -/
  | call (ra : Byte)
  /-- Return from subroutine. Format F0 (43_control_flow.md R162). -/
  | ret
  /-- Jump. Format F1R (43_control_flow.md R163). -/
  | jmp (ra : Byte)
  /-- Jump if equal. Format F1R (43_control_flow.md R164). -/
  | jeq (ra : Byte)
  /-- Jump if not equal. Format F1R (43_control_flow.md R165). -/
  | jne (ra : Byte)
  deriving DecidableEq, Repr

end Sys2Proof
end

