-- ==== Sys2Proof/WellFormed.lean ====
section
/-! DEFINITION. Which instructions name registers that exist (30_encoding.md R73, R74). -/

namespace Sys2Proof

/-- The operand bytes that the instruction's format makes register indices, op1 before op2
(30_encoding.md R73, 40_cycle.md R102). LDI's second byte is an immediate, never one of them. -/
def Instr.regBytes : Instr → List Byte
  | .hlt => []
  | .ldi ra _ => [ra]
  | .prn ra => [ra]
  | .push ra => [ra]
  | .pop ra => [ra]
  | .add ra rb => [ra, rb]
  | .sub ra rb => [ra, rb]
  | .mul ra rb => [ra, rb]
  | .div ra rb => [ra, rb]
  | .mod ra rb => [ra, rb]
  | .and ra rb => [ra, rb]
  | .or ra rb => [ra, rb]
  | .xor ra rb => [ra, rb]
  | .not ra => [ra]
  | .shl ra rb => [ra, rb]
  | .shr ra rb => [ra, rb]
  | .cmp ra rb => [ra, rb]
  | .call ra => [ra]
  | .ret => []
  | .jmp ra => [ra]
  | .jeq ra => [ra]
  | .jne ra => [ra]

/-- A register operand byte names a register exactly when it is at most 7 (30_encoding.md R74). -/
abbrev namesReg (b : Byte) : Prop := b.toNat ≤ 7

/-- Every register operand names a register (30_encoding.md R74). An immediate may hold any value
(30_encoding.md R75). -/
abbrev Instr.WellFormed (i : Instr) : Prop := ∀ b ∈ i.regBytes, namesReg b

end Sys2Proof
end

