-- ==== Sys2Proof/Decode.lean ====
section
/-! DEFINITION. The opcode map of 30_encoding.md R76, the decoder over bytes, which refuses by name, and
the encoder. The opcode bytes stand in ONE table, `opcodeByte`, as R76 asks. -/

namespace Sys2Proof

/-- The 22 instructions by name, without operands (30_encoding.md R76). -/
inductive Opcode where
  | hlt | ldi | prn | push | pop | add | sub | mul | div | mod | and | or | xor | not | shl | shr | cmp
  | call | ret | jmp | jeq | jne
  deriving DecidableEq, Repr

/-- Why bytes are no instruction: the decoder refuses by one of these names. -/
inductive DecodeError where
  /-- The opcode byte is none of the 22 (30_encoding.md R80). -/
  | illegalOpcode (b : Byte)
  /-- Byte `k` of the instruction is not there (40_cycle.md R101): 1 is op1, 2 is op2. An empty list of bytes
  lacks byte 0, the opcode; a step always has that one (40_cycle.md R97). -/
  | missingByte (k : Nat)
  deriving DecidableEq, Repr

/-- The opcode map (30_encoding.md R76). UNVERIFIED (log 5): the bytes of ADD to DIV, MOD and AND, OR, XOR,
SHL, SHR are the spec's decisions D15, D16 and D17. -/
def opcodeByte : Opcode → Byte
  | .hlt  => 0b00000001
  | .ldi  => 0b10000010
  | .prn  => 0b01000111
  | .push => 0b01000101
  | .pop  => 0b01000110
  | .add  => 0b10100000
  | .sub  => 0b10100001
  | .mul  => 0b10100010
  | .div  => 0b10100011
  | .mod  => 0b10100100
  | .and  => 0b10101000
  | .or   => 0b10101010
  | .xor  => 0b10101011
  | .not  => 0b01101001
  | .shl  => 0b10101100
  | .shr  => 0b10101101
  | .cmp  => 0b10100111
  | .call => 0b01010000
  | .ret  => 0b00010001
  | .jmp  => 0b01010100
  | .jeq  => 0b01010101
  | .jne  => 0b01010110

/-- The rows of the table, in its order (30_encoding.md R76). -/
def allOpcodes : List Opcode :=
  [.hlt, .ldi, .prn, .push, .pop, .add, .sub, .mul, .div, .mod, .and, .or, .xor, .not, .shl, .shr, .cmp,
   .call, .ret, .jmp, .jeq, .jne]

/-- Decoding is by the full opcode byte (30_encoding.md R72, R76; 40_cycle.md R100). -/
def decodeOpcode (b : Byte) : Option Opcode :=
  allOpcodes.find? fun o => opcodeByte o == b

/-- n, the operand count: bits 7:6 of the opcode byte (30_encoding.md R72). -/
def operandCount (b : Byte) : Nat := (b.extractLsb' 6 2).toNat

/-- P, the PC-control flag: bit 4 of the opcode byte (30_encoding.md R72). -/
def pcControl (b : Byte) : Bool := b.getLsbD 4

/-- The instruction of an opcode with its operand bytes op1 and op2 (30_encoding.md R73). A format with
fewer operands does not use the rest. -/
def assemble : Opcode → Byte → Byte → Instr
  | .hlt, _, _ => .hlt
  | .ldi, a, b => .ldi a b
  | .prn, a, _ => .prn a
  | .push, a, _ => .push a
  | .pop, a, _ => .pop a
  | .add, a, b => .add a b
  | .sub, a, b => .sub a b
  | .mul, a, b => .mul a b
  | .div, a, b => .div a b
  | .mod, a, b => .mod a b
  | .and, a, b => .and a b
  | .or, a, b => .or a b
  | .xor, a, b => .xor a b
  | .not, a, _ => .not a
  | .shl, a, b => .shl a b
  | .shr, a, b => .shr a b
  | .cmp, a, b => .cmp a b
  | .call, a, _ => .call a
  | .ret, _, _ => .ret
  | .jmp, a, _ => .jmp a
  | .jeq, a, _ => .jeq a
  | .jne, a, _ => .jne a

/-- Decode an opcode byte and the operand bytes that follow it. The opcode is judged before the operands
are looked at (60_exceptions.md R184); a missing operand is refused by its number, op1 before op2
(40_cycle.md R101). -/
def decode (b : Byte) (following : List Byte) : Except DecodeError Instr :=
  match decodeOpcode b with
  | none => .error (.illegalOpcode b)
  | some o =>
    if following.length < operandCount b then .error (.missingByte (following.length + 1))
    else .ok (assemble o (following.getD 0 0) (following.getD 1 0))

/-- Decode the instruction at the front of a list of bytes; answers it with the bytes after it. -/
def decodeBytes : List Byte → Except DecodeError (Instr × List Byte)
  | [] => .error (.missingByte 0)
  | b :: following =>
    match decode b following with
    | .error e => .error e
    | .ok i => .ok (i, following.drop (operandCount b))

/-- The opcode of an instruction. -/
def instrOpcode : Instr → Opcode
  | .hlt => .hlt
  | .ldi _ _ => .ldi
  | .prn _ => .prn
  | .push _ => .push
  | .pop _ => .pop
  | .add _ _ => .add
  | .sub _ _ => .sub
  | .mul _ _ => .mul
  | .div _ _ => .div
  | .mod _ _ => .mod
  | .and _ _ => .and
  | .or _ _ => .or
  | .xor _ _ => .xor
  | .not _ => .not
  | .shl _ _ => .shl
  | .shr _ _ => .shr
  | .cmp _ _ => .cmp
  | .call _ => .call
  | .ret => .ret
  | .jmp _ => .jmp
  | .jeq _ => .jeq
  | .jne _ => .jne

/-- The operand bytes of an instruction in memory order, op1 then op2 (30_encoding.md R73). -/
def instrOperands : Instr → List Byte
  | .hlt => []
  | .ldi ra imm => [ra, imm]
  | .prn ra => [ra]
  | .push ra => [ra]
  | .pop ra => [ra]
  | .add ra rb => [ra, rb]
  | .sub ra rb => [ra, rb]
  | .mul ra rb => [ra, rb]
  | .div ra rb => [ra, rb]
  | .mod ra rb => [ra, rb]
  | .and ra rb => [ra, rb]
  | .or ra rb => [ra, rb]
  | .xor ra rb => [ra, rb]
  | .not ra => [ra]
  | .shl ra rb => [ra, rb]
  | .shr ra rb => [ra, rb]
  | .cmp ra rb => [ra, rb]
  | .call ra => [ra]
  | .ret => []
  | .jmp ra => [ra]
  | .jeq ra => [ra]
  | .jne ra => [ra]

/-- The bytes of an instruction, the opcode at the lowest address (30_encoding.md R71, R73). -/
def encode (i : Instr) : List Byte := opcodeByte (instrOpcode i) :: instrOperands i

/-- The first three bytes of a table word: bit 0 is the least significant bit of the first byte, and every
bit from `nbits` on is 0. Three bytes are the longest instruction (30_encoding.md R71). -/
def tableBytes (nbits w : Nat) : List Byte :=
  let v := w % 2 ^ nbits
  [BitVec.ofNat 8 v, BitVec.ofNat 8 (v / 2 ^ 8), BitVec.ofNat 8 (v / 2 ^ 16)]

/-- The instruction that the decoder reads from a word of spec/opcode_table.json. -/
def decodeTableWord (nbits w : Nat) : Option Instr :=
  match decodeBytes (tableBytes nbits w) with
  | .ok (i, _) => some i
  | .error _ => none

end Sys2Proof
end

