-- ==== Sys2Proof/Machine/Fetch.lean ====
section
/-! DEFINITION. Fetch (40_cycle.md R97, R100, R101) and what a refusal of the decoder raises. -/

namespace Sys2Proof.Machine

/-- The bytes of up to `n` cells from address `a`, stopping where memory ends: addresses never wrap
(40_cycle.md R101). -/
def cellsFrom (m : Memory) : Nat → Nat → List Byte
  | 0, _ => []
  | n + 1, a => if a > 255 then [] else m.read a :: cellsFrom m n (a + 1)

/-- The opcode byte at the PC (40_cycle.md R97). -/
def State.opcodeAtPc (s : State) : Byte := s.mem.read s.pc.toNat

/-- The operand bytes a step reads: only the n that a legal opcode consumes, and none of an illegal one
(40_cycle.md R100, R101). -/
def State.operandsAtPc (s : State) : List Byte :=
  match decodeOpcode s.opcodeAtPc with
  | none => []
  | some _ => cellsFrom s.mem (operandCount s.opcodeAtPc) (s.pc.toNat + 1)

/-- Fetch: IR and the operand latches take the bytes read (40_cycle.md R97, R101). -/
def State.fetch (s : State) : State := s.latch s.opcodeAtPc s.operandsAtPc

/-- What the step at `pc` raises when the decoder refuses (40_cycle.md R100, R101; 60_exceptions.md R183). -/
def decodeRaise (pc : Byte) : DecodeError → Raise
  | .illegalOpcode b => ⟨.illegalOpcode, b.setWidth 9⟩
  | .missingByte k => ⟨.operandRange, BitVec.ofNat 9 (pc.toNat + k)⟩

/-- The cells from address `a` on take the bytes in order; bytes that would lie above 255 are not stored. -/
def writeCells : List Byte → Nat → Memory → Memory
  | [], _, m => m
  | v :: vs, a, m => if a > 255 then m else writeCells vs (a + 1) (m.write a v)

end Sys2Proof.Machine
end

