-- ==== Sys2Proof/Machine/Step.lean ====
section
/-! DEFINITION. One STEP (40_cycle.md R106), and where the host places an instruction for it. -/

namespace Sys2Proof.Machine

/-- Fetch, decode, then run the instruction or take the fault of the decoder's refusal (40_cycle.md R97 to
R105). -/
def runInstruction (s : State) : Host.Outcome State Fault Refusal :=
  match decode s.opcodeAtPc s.operandsAtPc with
  | .error e => commit s.fetch (.error (decodeRaise s.pc e))
  | .ok i => exec i s.fetch

/-- STEP (40_cycle.md R96, R106): it executes one instruction while RUNNING; "A STEP when RUN_STATE is IDLE,
HALTED or FAULTED changes nothing." -/
def step (s : State) : Host.Outcome State Fault Refusal :=
  match s.runState with
  | .running => runInstruction s
  | .idle => .next s
  | .halted => .next s
  | .faulted => .next s

/-- What LOAD and START give before a first step (70_reset_and_hazards.md R212, R213): the word's three bytes
in the cells at the PC, and RUN_STATE = RUNNING (log 11). -/
def State.withFetchWord (s : State) (nbits w : Nat) : State :=
  { s with mem := writeCells (tableBytes nbits w) s.pc.toNat s.mem, runState := .running }

end Sys2Proof.Machine
end

