-- ==== Sys2Proof/Assembly.lean ====
section
/-! DEFINITION. The assembly syntax (30_encoding.md R81): the text of an instruction. Nothing of the machine reads it. -/

namespace Sys2Proof

/-- `R0` to `R7`; a byte above 7 has no assembly form. -/
def registerText (b : Byte) : Option String :=
  ["R0", "R1", "R2", "R3", "R4", "R5", "R6", "R7"][b.toNat]?

/-- An immediate is a decimal number. -/
def immediateText (b : Byte) : String := Nat.repr b.toNat

/-- `OP Ra`. -/
def oneRegisterText (mnemonic : String) (ra : Byte) : Option String :=
  match registerText ra with
  | none => none
  | some a => some (mnemonic ++ " " ++ a)

/-- `OP Ra,Rb`: the operand order is the byte order in memory. -/
def twoRegisterText (mnemonic : String) (ra rb : Byte) : Option String :=
  match registerText ra, registerText rb with
  | some a, some b => some (mnemonic ++ " " ++ a ++ "," ++ b)
  | none, _ => none
  | some _, none => none

/-- The forms of 30_encoding.md R81. -/
def Instr.assembly : Instr → Option String
  | .hlt => some "HLT"
  | .ldi ra imm =>
    match registerText ra with
    | none => none
    | some a => some ("LDI " ++ a ++ "," ++ immediateText imm)
  | .prn ra => oneRegisterText "PRN" ra
  | .push ra => oneRegisterText "PUSH" ra
  | .pop ra => oneRegisterText "POP" ra
  | .add ra rb => twoRegisterText "ADD" ra rb
  | .sub ra rb => twoRegisterText "SUB" ra rb
  | .mul ra rb => twoRegisterText "MUL" ra rb
  | .div ra rb => twoRegisterText "DIV" ra rb
  | .mod ra rb => twoRegisterText "MOD" ra rb
  | .and ra rb => twoRegisterText "AND" ra rb
  | .or ra rb => twoRegisterText "OR" ra rb
  | .xor ra rb => twoRegisterText "XOR" ra rb
  | .not ra => oneRegisterText "NOT" ra
  | .shl ra rb => twoRegisterText "SHL" ra rb
  | .shr ra rb => twoRegisterText "SHR" ra rb
  | .cmp ra rb => twoRegisterText "CMP" ra rb
  | .call ra => oneRegisterText "CALL" ra
  | .ret => some "RET"
  | .jmp ra => oneRegisterText "JMP" ra
  | .jeq ra => oneRegisterText "JEQ" ra
  | .jne ra => oneRegisterText "JNE" ra

end Sys2Proof
end

