-- ==== Sys2Proof/Machine/Port.lean ====
section
/-! DEFINITION. The block interface at transaction level (10_state.md R41, 70_reset_and_hazards.md R211 to
R216): the host's inputs, which land only between steps, and the outputs it reads. -/

namespace Sys2Proof.Machine

/-- The inputs of the block (10_state.md R41). RUN is STEP repeated (`run`). -/
inductive PortEvent where
  /-- RESET; the open parameters are what the reset state happens to hold (00_scope.md R8). -/
  | reset (p : ResetParams)
  | load (a v : Byte)
  | start
  | step
  deriving DecidableEq, Repr

/-- RESET, accepted in any RUN_STATE (70_reset_and_hazards.md R211). It "leaves memory untouched" (decision D23): the
RESET_MEM of a RESET is what memory holds (log 10). -/
def portReset (p : ResetParams) (s : State) : State := State.resetWith p s.mem

/-- LOAD(a, v), accepted only while IDLE (70_reset_and_hazards.md R212, R216). -/
def portLoad (a v : Byte) (s : State) : State :=
  match s.runState with
  | .idle => s.store a v
  | .running => s
  | .halted => s
  | .faulted => s

/-- START, accepted only while IDLE (70_reset_and_hazards.md R213, R216). -/
def portStart (s : State) : State :=
  match s.runState with
  | .idle => { s with runState := .running }
  | .running => s
  | .halted => s
  | .faulted => s

/-- What the block does at each input (70_reset_and_hazards.md R216). -/
def portAct : PortEvent → State → Host.Outcome State Fault Refusal
  | .reset p, s => .next (portReset p s)
  | .load a v, s => .next (portLoad a v s)
  | .start, s => .next (portStart s)
  | .step, s => Sys2Proof.Machine.step s

/-- LOAD of the image bytes from address `a` in file order (70_reset_and_hazards.md R212). Bytes that would lie
above 255 are not loaded; such an image is the loader's error (log 13). -/
def portLoadImage : List Byte → Nat → State → State
  | [], _, s => s
  | v :: vs, a, s => if a > 255 then s else portLoadImage vs (a + 1) (portLoad (BitVec.ofNat 8 a) v s)

/-- RUN under fuel (40_cycle.md R107): STEP while RUNNING, at most `fuel` times. A state that is still RUNNING
when the fuel is gone has not ended. -/
def run : Nat → State → Host.Outcome State Fault Refusal
  | 0, s => .next s
  | fuel + 1, s =>
    match s.runState with
    | .running =>
      match step s with
      | .next t => run fuel t
      | .fault r => .fault r
      | .refused r => .refused r
    | .idle => .next s
    | .halted => .next s
    | .faulted => .next s

/-- RUN_STATE at the port (10_state.md R34). -/
def runStateCode : RunState → BitVec 2
  | .idle => 0
  | .running => 1
  | .halted => 2
  | .faulted => 3

/-- FAULT_CAUSE at the port (60_exceptions.md R181). -/
def faultCauseCode : FaultCause → BitVec 3
  | .noFault => 0
  | .illegalOpcode => 1
  | .operandRange => 2
  | .registerIndex => 3
  | .divideByZero => 4
  | .stackPushRange => 5
  | .stackPopRange => 6
  | .pcRange => 7

/-- What the host reads between steps (10_state.md R37, R41): RUN_STATE, the fault record, OBS and OUT. -/
structure Observation where
  runState   : BitVec 2
  faultCause : BitVec 3
  faultPc    : Byte
  faultIr    : Byte
  faultInfo  : BitVec 9
  regs       : Vector Byte 8
  pc         : Byte
  fl         : BitVec 3
  /-- The 256 cells, address 0 first. -/
  cells      : List Byte
  out        : List Byte
  deriving DecidableEq, Repr

/-- The read-only outputs (10_state.md R37, R41); reading them changes nothing. -/
def State.observe (s : State) : Observation where
  runState   := runStateCode s.runState
  faultCause := faultCauseCode s.fault.cause
  faultPc    := s.fault.pc
  faultIr    := s.fault.ir
  faultInfo  := s.fault.info
  regs       := s.regs
  pc         := s.pc
  fl         := s.fl
  cells      := cellsFrom s.mem Config.memSize 0
  out        := s.out

end Sys2Proof.Machine
end

