-- ==== Sys2Proof/Safety.lean ====
section
/-! DEFINITION. The terms claims are stated in: how a run ends, what a fault or a completed instruction
leaves, the fault a step must take, and the invariant of the machine. -/

namespace Sys2Proof.Machine

/-! ## How a run ends (60_exceptions.md R186, 70_reset_and_hazards.md R217) -/

/-- The clean end. -/
abbrev State.CleanEnd (s : State) : Prop := s.runState = .halted
/-- The fatal end. -/
abbrev State.FatalEnd (s : State) : Prop := s.runState = .faulted
/-- The run has ended. A state that is still RUNNING has not, however many steps it took. -/
abbrev State.Ended (s : State) : Prop := s.CleanEnd ∨ s.FatalEnd

/-! ## What stands at the PC -/

/-- The cell `k` above the PC: the opcode byte for 0, op1 for 1, op2 for 2 (30_encoding.md R73). -/
abbrev State.byteAt (s : State) (k : Nat) : Byte := s.mem.read (s.pc.toNat + k)
/-- RUNNING, with this opcode byte at the PC. -/
abbrev State.At (s : State) (opcode : Byte) : Prop := s.runState = .running ∧ s.byteAt 0 = opcode

/-! ## Frames -/

/-- Registers, FL, memory, OUT and PC are as before (60_exceptions.md R182). -/
abbrev KeepsArch (s t : State) : Prop :=
  t.regs = s.regs ∧ t.fl = s.fl ∧ t.mem = s.mem ∧ t.out = s.out ∧ t.pc = s.pc
/-- Every register but the listed ones reads as before. -/
abbrev RegsKeptBut (written : List Reg) (s t : State) : Prop := ∀ r : Reg, r ∉ written → t.reg r = s.reg r
/-- Every cell reads as before. -/
abbrev MemKept (s t : State) : Prop := ∀ a : Nat, t.mem.read a = s.mem.read a
/-- Every cell outside address `stored` reads as before. -/
abbrev MemKeptBut (stored : Nat) (s t : State) : Prop := ∀ a : Nat, a ≠ stored → t.mem.read a = s.mem.read a
/-- IR and the operand latches are as before: only fetch writes them (10_state.md R32, R33). -/
abbrev LatchesKept (s t : State) : Prop := t.ir = s.ir ∧ t.op1 = s.op1 ∧ t.op2 = s.op2
/-- RUN_STATE and the fault record are as before: no fault was taken. -/
abbrev StatusKept (s t : State) : Prop := t.runState = s.runState ∧ t.fault = s.fault

/-! ## Faults (60_exceptions.md R182) -/

/-- `t` is `s` after taking this fault: FAULTED, the record written, everything else kept. -/
abbrev FaultTaken (s t : State) (ir : Byte) (cause : FaultCause) (info : Nat) : Prop :=
  t.runState = .faulted ∧ t.fault.cause = cause ∧ t.fault.pc = s.pc ∧ t.fault.ir = ir ∧
    t.fault.info.toNat = info ∧ KeepsArch s t
/-- The step takes this fault; FAULT_IR is the opcode byte at the PC. -/
def StepFaults (s : State) (cause : FaultCause) (info : Nat) : Prop :=
  ∃ t, step s = .next t ∧ FaultTaken s t (s.byteAt 0) cause info
/-- The instruction takes this fault; FAULT_IR is IR. -/
def ExecFaults (i : Instr) (s : State) (cause : FaultCause) (info : Nat) : Prop :=
  ∃ t, exec i s = .next t ∧ FaultTaken s t s.ir cause info
/-- The step completes without a fault, still RUNNING, in a state of which `P` holds. -/
def StepCompletes (s : State) (P : State → Prop) : Prop :=
  ∃ t, step s = .next t ∧ t.runState = .running ∧ t.fault = s.fault ∧ P t

/-! ## The faults before the handler, per format (40_cycle.md R101, R102) -/

/-- One of the `n` operand bytes would lie above 255. -/
abbrev OperandRangeFaults (n : Nat) (s : State) : Prop := s.pc.toNat + n > 255 → StepFaults s .operandRange 256
/-- op1 names no register; the instruction has `n` operand bytes. -/
abbrev Op1IndexFaults (n : Nat) (s : State) : Prop :=
  s.pc.toNat + n ≤ 255 → (s.byteAt 1).toNat > 7 → StepFaults s .registerIndex (s.byteAt 1).toNat
/-- op1 names a register and op2 names none. -/
abbrev Op2IndexFaults (s : State) : Prop :=
  s.pc.toNat + 2 ≤ 255 → (s.byteAt 1).toNat ≤ 7 → (s.byteAt 2).toNat > 7 →
    StepFaults s .registerIndex (s.byteAt 2).toNat
/-- Formats F1R. -/
abbrev F1RFaults (s : State) : Prop := OperandRangeFaults 1 s ∧ Op1IndexFaults 1 s
/-- Format F2RR. -/
abbrev F2RRFaults (s : State) : Prop := OperandRangeFaults 2 s ∧ Op1IndexFaults 2 s ∧ Op2IndexFaults s
/-- Format F2RI: op2 is a literal and never checked. -/
abbrev F2RIFaults (s : State) : Prop := OperandRangeFaults 2 s ∧ Op1IndexFaults 2 s

/-! ## The one fault of a step (60_exceptions.md R184) -/

/-- The 22 legal opcode bytes with n, P and the number of register operands, transcribed from the table of
30_encoding.md R76 and the formats of R73 (kept apart from the decoder's own table on purpose). -/
def opcodeRows : List (Byte × Nat × Bool × Nat) :=
  [(0x01, 0, false, 0), (0x82, 2, false, 1), (0x47, 1, false, 1), (0x45, 1, false, 1), (0x46, 1, false, 1),
   (0xA0, 2, false, 2), (0xA1, 2, false, 2), (0xA2, 2, false, 2), (0xA3, 2, false, 2), (0xA4, 2, false, 2),
   (0xA8, 2, false, 2), (0xAA, 2, false, 2), (0xAB, 2, false, 2), (0x69, 1, false, 1), (0xAC, 2, false, 2),
   (0xAD, 2, false, 2), (0xA7, 2, false, 2), (0x50, 1, true, 1), (0x11, 0, true, 0), (0x54, 1, true, 1),
   (0x55, 1, true, 1), (0x56, 1, true, 1)]

/-- What register `b` would name, read without a check: the low three bits. Used only where `b` is known to be
at most 7. -/
def State.regNamed (s : State) (b : Byte) : Byte := s.reg ⟨b.toNat % 8, Nat.mod_lt _ (by decide)⟩

/-- The handler's own fault, in the handler's statement order (60_exceptions.md R184 item 4). -/
def handlerFault (s : State) : Option (FaultCause × Nat) :=
  let opcode := s.byteAt 0
  if opcode = 0xA3 ∨ opcode = 0xA4 then
    if s.regNamed (s.byteAt 2) = 0 then some (.divideByZero, (s.byteAt 2).toNat) else none
  else if opcode = 0x45 then
    if s.reg 7 = 0 then some (.stackPushRange, 0) else none
  else if opcode = 0x46 then
    let toIncrement := if s.byteAt 1 = 7 then s.mem.read (s.reg 7).toNat else s.reg 7
    if toIncrement = 255 then some (.stackPopRange, 255) else none
  else if opcode = 0x11 then
    if s.reg 7 = 255 then some (.stackPopRange, 255) else none
  else if opcode = 0x50 then
    if s.pc.toNat + 2 > 255 then some (.pcRange, s.pc.toNat + 2)
    else if s.reg 7 = 0 then some (.stackPushRange, 0) else none
  else if opcode = 0x55 then
    if s.fl.getLsbD 0 = false ∧ s.pc.toNat + 2 > 255 then some (.pcRange, s.pc.toNat + 2) else none
  else if opcode = 0x56 then
    if s.fl.getLsbD 0 = true ∧ s.pc.toNat + 2 > 255 then some (.pcRange, s.pc.toNat + 2) else none
  else none

/-- The first fault a RUNNING state's step reaches, in the order of 60_exceptions.md R184, with its FAULT_INFO
(R183); none if the step halts or completes. Written from R184, not from `step`. -/
def firstFault (s : State) : Option (FaultCause × Nat) :=
  let opcode := s.byteAt 0
  if opcode = 0x01 then none
  else match opcodeRows.find? (fun row => row.1 == opcode) with
    | none => some (.illegalOpcode, opcode.toNat)
    | some (_, n, p, regOperands) =>
      if s.pc.toNat + n > 255 then some (.operandRange, 256)
      else if regOperands ≥ 1 ∧ (s.byteAt 1).toNat > 7 then some (.registerIndex, (s.byteAt 1).toNat)
      else if regOperands ≥ 2 ∧ (s.byteAt 2).toNat > 7 then some (.registerIndex, (s.byteAt 2).toNat)
      else match handlerFault s with
        | some f => some f
        | none => if p = false ∧ s.pc.toNat + n + 1 > 255 then some (.pcRange, s.pc.toNat + n + 1) else none

/-! ## The invariant -/

/-- The record of a FAULTED state is what its step could record (60_exceptions.md R183): FAULT_INFO fits the
cause, and the state still shows it. -/
def State.RecordFits (s : State) : Prop :=
  match s.fault.cause with
  | .noFault => False
  | .illegalOpcode => s.fault.info.toNat = s.fault.ir.toNat ∧ ∀ row ∈ opcodeRows, row.1 ≠ s.fault.ir
  | .operandRange => s.fault.info.toNat = 256
  | .registerIndex => 8 ≤ s.fault.info.toNat ∧ s.fault.info.toNat ≤ 255
  | .divideByZero => ∃ r : Reg, s.fault.info.toNat = r.val ∧ s.reg r = 0
  | .stackPushRange => s.fault.info.toNat = 0 ∧ s.reg 7 = 0
  | .stackPopRange => s.fault.info.toNat = 255
  | .pcRange => s.fault.info.toNat = 256

/-- The invariant of the machine: memory is canonical, HALTED stands at a HLT byte (40_cycle.md R98), a FAULTED
state's record names its own PC and opcode byte and fits its cause (60_exceptions.md R182, R183), and the
record is zero until then (10_state.md R35, R40). -/
structure State.Inv (s : State) : Prop where
  memory    : s.mem.wf
  atHalt    : s.runState = .halted → s.byteAt 0 = 0x01
  recorded  : s.runState = .faulted → s.fault.pc = s.pc ∧ s.fault.ir = s.byteAt 0 ∧ s.RecordFits
  unwritten : s.runState ≠ .faulted → s.fault = .zero

/-! ## Sequences -/

/-- Run instructions one after the other, stopping at a model fault or refusal. -/
def execAll : List Instr → State → Host.Outcome State Fault Refusal
  | [], s => .next s
  | i :: is, s =>
    match exec i s with
    | .next t => execAll is t
    | .fault r => .fault r
    | .refused r => .refused r

/-- Give the block inputs one after the other. -/
def portAll : List PortEvent → State → Host.Outcome State Fault Refusal
  | [], s => .next s
  | e :: es, s =>
    match portAct e s with
    | .next t => portAll es t
    | .fault r => .fault r
    | .refused r => .refused r

end Sys2Proof.Machine
end

