-- ==== Sys2Proof/Certificates/Slice0/Obligations.lean ====
section
/-! DEFINITION. The statements for the provers (OBLIGATIONS.json lists them). -/

open Sys2Proof Sys2Proof.Machine

/-! ## Encoding -/

/-- Decode and encode agree both ways: the bytes `bs` decode to `i` with `rest` left over exactly when `bs` is the
encoding of `i` followed by `rest`. For every instruction, with every operand byte, well-formed or not. -/
def Obligations.DecodeIffEncode : Prop :=
  ∀ (i : Instr) (rest bs : List Byte), decodeBytes bs = .ok (i, rest) ↔ bs = encode i ++ rest

/-- Words written out bit by bit from the table of 30_encoding.md R76, one for each format and family. -/
def Obligations.WordsDecodeAsTheTableSays : Prop :=
  decodeBytes [0b00000001] = .ok (.hlt, []) ∧
  decodeBytes [0b10000010, 0b00000000, 0b00001000] = .ok (.ldi 0 8, []) ∧
  decodeBytes [0b01000101, 0b00000111] = .ok (.push 7, []) ∧
  decodeBytes [0b10100001, 0b00000001, 0b00000010] = .ok (.sub 1 2, []) ∧
  decodeBytes [0b10100100, 0b00000001, 0b00000010] = .ok (.mod 1 2, []) ∧
  decodeBytes [0b10101101, 0b00000011, 0b00000100] = .ok (.shr 3 4, []) ∧
  decodeBytes [0b01101001, 0b00000101] = .ok (.not 5, []) ∧
  decodeBytes [0b01010110, 0b00000011] = .ok (.jne 3, []) ∧
  decodeBytes [0b00010001, 0b00000011] = .ok (.ret, [0b00000011])

/-- 30_encoding.md R77 and R78: for each of the 22 bytes, bits 7:6 and bit 4 equal the table's columns, bit 5 is 1
in exactly the twelve ALU bytes, and a byte has an opcode exactly when it is one of the 22. -/
def Obligations.OpcodeFieldsAgreeWithTable : Prop :=
  (∀ row ∈ opcodeRows, operandCount row.1 = row.2.1 ∧ pcControl row.1 = row.2.2.1 ∧
    (row.1.getLsbD 5 = true ↔
      row.1 ∈ ([0xA0, 0xA1, 0xA2, 0xA3, 0xA4, 0xA7, 0xA8, 0xAA, 0xAB, 0xAC, 0xAD, 0x69] : List Byte))) ∧
  ∀ b : Byte, (decodeOpcode b).isSome = opcodeRows.any (fun row => row.1 == b)

/-- 30_encoding.md R79: an instruction is bits 7:6 of its opcode byte plus 1 bytes long, whatever its operands, and
a byte with bits 7:6 = 11 is never legal. -/
def Obligations.LengthComesFromBits76 : Prop :=
  (∀ i : Instr, ∃ b ops, encode i = b :: ops ∧ (encode i).length = (b.extractLsb' 6 2).toNat + 1) ∧
  ∀ (b : Byte) (ops : List Byte), b.extractLsb' 6 2 = 3 → decode b ops = .error (.illegalOpcode b)

/-! ## The step -/

/-- A step runs the decoded instruction: where the cells from the PC on hold the encoding of `i`, the step is `exec i`
at the state whose IR is the opcode byte and whose latches hold the operand bytes; fetch changes nothing else. That a
latch whose operand the instruction does not have keeps its byte is the model's choice (log 4). -/
def Obligations.StepRunsTheDecodedInstruction : Prop :=
  ∀ (i : Instr) (s : State), s.runState = .running →
    (∀ k (h : k < (encode i).length), s.pc.toNat + k ≤ 255 ∧ s.byteAt k = (encode i)[k]) →
    step s = exec i { s with
      ir := opcodeByte (instrOpcode i)
      op1 := (instrOperands i).getD 0 s.op1
      op2 := (instrOperands i).getD 1 s.op2 }

/-- Outside RUNNING a STEP changes nothing (40_cycle.md R106). -/
def Obligations.StepOutsideRunningChangesNothing : Prop :=
  ∀ s : State, s.runState ≠ .running → step s = .next s

/-- 40_cycle.md R97: every step of a RUNNING state loads IR with the cell at the PC; no PC makes it stop. That a step
which faults keeps the IR it loaded is the model's choice (log 4). -/
def Obligations.FetchLoadsIR : Prop :=
  ∀ s : State, s.runState = .running → ∃ t, step s = .next t ∧ t.ir = s.byteAt 0

/-- 40_cycle.md R100: a byte that is none of the 22 faults ILLEGAL_OPCODE at every PC, with the byte as FAULT_INFO. -/
def Obligations.IllegalOpcodeFaults : Prop :=
  ∀ s : State, s.runState = .running → (∀ row ∈ opcodeRows, row.1 ≠ s.byteAt 0) →
    StepFaults s .illegalOpcode (s.byteAt 0).toNat

/-- 40_cycle.md R101: a legal opcode's operand bytes are read into the latches if all of them lie inside memory, and
OPERAND_RANGE with 256 is taken if one does not. A byte beyond the n consumed ones is not read: it never faults, and
whatever it holds, IR and the latches end the same. That a step which faults later keeps the latches it loaded is the
model's choice (log 4). -/
def Obligations.OperandFetchReadsOrFaults : Prop :=
  ∀ (s : State) (row : Byte × Nat × Bool × Nat), row ∈ opcodeRows → s.At row.1 →
    (s.pc.toNat + row.2.1 > 255 → StepFaults s .operandRange 256) ∧
    (s.pc.toNat + row.2.1 ≤ 255 → ∃ t, step s = .next t ∧
      (1 ≤ row.2.1 → t.op1 = s.byteAt 1) ∧ (2 ≤ row.2.1 → t.op2 = s.byteAt 2) ∧
      ¬ (t.runState = .faulted ∧ t.fault.cause = .operandRange) ∧
      ∀ (k : Nat) (v : Byte), row.2.1 < k →
        ∃ u, step { s with mem := s.mem.write (s.pc.toNat + k) v } = .next u ∧ LatchesKept t u)

/-- 40_cycle.md R102: the first register operand byte above 7, op1 before op2, is reported by REGISTER_INDEX before the
handler runs, whatever the handler would do; without one there is no such fault. -/
def Obligations.RegisterOperandsAreValidatedFirst : Prop :=
  ∀ (s : State) (i : Instr), s.runState = .running → decode s.opcodeAtPc s.operandsAtPc = .ok i →
    (∀ before b after, i.regBytes = before ++ b :: after → (∀ c ∈ before, namesReg c) → ¬ namesReg b →
      StepFaults s .registerIndex b.toNat) ∧
    (i.WellFormed → ∃ t, step s = .next t ∧ ¬ (t.runState = .faulted ∧ t.fault.cause = .registerIndex))

/-- The sequential advance: an instruction with P = 0 other than HLT that completes leaves the PC n + 1 further, and
cannot complete where that is above 255 (40_cycle.md R104). -/
def Obligations.SequentialAdvanceNeverWraps : Prop :=
  ∀ (i : Instr) (s t : State), s.runState = .running → i ≠ .hlt →
    pcControl (opcodeByte (instrOpcode i)) = false → exec i s = .next t →
    (t.runState = .running → t.pc.toNat = s.pc.toNat + (encode i).length) ∧
    (s.pc.toNat + (encode i).length > 255 → t.runState = .faulted)

/-- 60_exceptions.md R182 and R184: a RUNNING state's step takes exactly the first fault of R184's order, precisely (its
record written, everything else as before), and takes none where there is none. -/
def Obligations.StepTakesExactlyTheFirstFault : Prop :=
  ∀ s : State, s.runState = .running →
    (∀ cause info, firstFault s = some (cause, info) → StepFaults s cause info) ∧
    (firstFault s = none → ∃ t, step s = .next t ∧ t.runState ≠ .faulted ∧ t.fault = s.fault)

/-- 60_exceptions.md R183: FAULT_INFO by cause. -/
def Obligations.FaultInfoByCause : Prop :=
  ∀ s t : State, s.runState = .running → step s = .next t → t.runState = .faulted →
    match t.fault.cause with
    | .noFault => False
    | .illegalOpcode => t.fault.info.toNat = (s.byteAt 0).toNat
    | .operandRange => t.fault.info.toNat = 256
    | .registerIndex => 8 ≤ t.fault.info.toNat ∧ (∃ k, (k = 1 ∨ k = 2) ∧ t.fault.info.toNat = (s.byteAt k).toNat)
    | .divideByZero => t.fault.info.toNat = (s.byteAt 2).toNat ∧ ∃ r : Reg, r.val = (s.byteAt 2).toNat ∧ s.reg r = 0
    | .stackPushRange => t.fault.info.toNat = 0 ∧ s.reg 7 = 0
    | .stackPopRange => t.fault.info.toNat = 255
    | .pcRange => t.fault.info.toNat = 256

/-- 10_state.md R34: the only transitions of RUN_STATE, over every input of the block, and the port's encoding. -/
def Obligations.RunStateTransitions : Prop :=
  (∀ (e : PortEvent) (s t : State), portAct e s = .next t →
    t.runState = s.runState ∨
    (e = .start ∧ s.runState = .idle ∧ t.runState = .running) ∨
    (e = .step ∧ s.runState = .running ∧ t.runState = .halted ∧ s.byteAt 0 = 0x01) ∨
    (e = .step ∧ s.runState = .running ∧ t.runState = .faulted) ∨
    ((∃ p, e = .reset p) ∧ t.runState = .idle)) ∧
  (∀ s : State, s.Ended → step s = .next s) ∧
  (runStateCode .idle = 0 ∧ runStateCode .running = 1 ∧ runStateCode .halted = 2 ∧ runStateCode .faulted = 3)

/-- 60_exceptions.md R185, and R190 for HALTED: whatever inputs an ended block gets, none of them a RESET, its whole
state stays as it is; a RESET returns it to IDLE. That the RESET leaves its cells as they are is R211 read with decision
D23 (DEDUCED, log 10). -/
def Obligations.EndedStatesStayUntilReset : Prop :=
  ∀ s : State, s.Ended →
    (∀ es : List PortEvent, (∀ p, PortEvent.reset p ∉ es) → portAll es s = .next s) ∧
    ∀ p, portAct (.reset p) s = .next (State.resetWith p s.mem) ∧ (State.resetWith p s.mem).runState = .idle

/-! ## Invariants -/

/-- Every step keeps the invariant. -/
def Obligations.StepKeepsTheInvariant : Prop :=
  ∀ s t : State, s.Inv → step s = .next t → t.Inv

/-- Every reset state whose RESET_MEM is in canonical form meets the invariant, and so does `State.reset`, whose empty
memory list is the model's choice (log 3). -/
def Obligations.ResetMeetsTheInvariant : Prop :=
  (∀ (p : ResetParams) (mem : Memory), mem.wf → (State.resetWith p mem).Inv) ∧ State.reset.Inv

/-- The host's inputs keep the invariant, in any order and number. A RESET keeps the canonical form because it leaves every
cell as it is, which is R211 read with decision D23 (DEDUCED, log 10). -/
def Obligations.InputsKeepTheInvariant : Prop :=
  ∀ (es : List PortEvent) (s t : State), s.Inv → portAll es s = .next t → t.Inv

/-- 10_state.md R29: after a CMP that completes exactly one bit of FL is set, and once that holds every step keeps
it. -/
def Obligations.FlagsStayOneHot : Prop :=
  ∀ s t : State, s.runState = .running → step s = .next t →
    (s.byteAt 0 = 0xA7 ∧ t.runState = .running) ∨ s.fl = 0b100 ∨ s.fl = 0b010 ∨ s.fl = 0b001 →
    t.fl = 0b100 ∨ t.fl = 0b010 ∨ t.fl = 0b001

/-- 10_state.md R36: PRN appends one byte, that of its register; no other step, no faulting one and no LOAD or START
changes OUT, and the host reads it whole. -/
def Obligations.OnlyPrnAppendsToOut : Prop :=
  (∀ s t : State, s.runState = .running → step s = .next t →
    (s.byteAt 0 = 0x47 ∧ t.runState = .running →
      ∃ r : Reg, r.val = (s.byteAt 1).toNat ∧ t.out = s.out ++ [s.reg r]) ∧
    (s.byteAt 0 ≠ 0x47 ∨ t.runState = .faulted → t.out = s.out)) ∧
  ∀ (s : State) (a v : Byte), (portLoad a v s).out = s.out ∧ (portStart s).out = s.out ∧ s.observe.out = s.out

/-- Only CMP writes FL, only JEQ and JNE read it, and they read only bit 0 (10_state.md R28): changing FL, in any way
for another instruction and in bits 1 and 2 for JEQ and JNE, changes nothing but FL, and FL itself stays what it was
except after a CMP that completes. -/
def Obligations.FlagsAreReadByBranchesOnly : Prop :=
  ∀ (i : Instr) (s : State) (f : BitVec 3),
    ((∃ ra, i = .jeq ra ∨ i = .jne ra) → f.getLsbD 0 = s.fl.getLsbD 0) →
    ∃ t u, exec i s = .next t ∧ exec i { s with fl := f } = .next u ∧
      { u with fl := t.fl } = t ∧ ((t.fl = s.fl ∧ u.fl = f) ∨ ((∃ ra rb, i = .cmp ra rb) ∧ u.fl = t.fl))

/-- Nothing carries over from one step to the next in IR and the latches (10_state.md R33): a RUNNING state with other
bytes in them steps to the same state, but for latches this step did not load. That a step which faults keeps the IR it
loaded is the model's choice (log 4). -/
def Obligations.LatchesCarryNothingOver : Prop :=
  ∀ (s : State) (ir op1 op2 : Byte), s.runState = .running →
    ∃ t u, step s = .next t ∧ step { s with ir := ir, op1 := op1, op2 := op2 } = .next u ∧
      { u with op1 := t.op1, op2 := t.op2 } = t

/-! ## Reset and the host interface -/

/-- 70_reset_and_hazards.md R211: RESET in any state, for every choice of the open parameters. It leaves every cell as it
is (decision D23). The state made is that of `State.resetWith`, whose RESET_MEM is what the cells hold: R211 and D23 read
together (DEDUCED, log 10). -/
def Obligations.ResetPutsEveryFieldAtItsValue : Prop :=
  ∀ (p : ResetParams) (s : State), ∃ t, portAct (.reset p) s = .next t ∧
    t.pc = 0 ∧ t.reg 7 = 0xF4 ∧ (∀ (k : Nat) (h : k < 7), t.reg ⟨k, by omega⟩ = p.gpr[k]) ∧ t.fl = p.fl ∧
    t.fault.pc = 0 ∧ t.fault.ir = 0 ∧ t.fault.info = 0 ∧ faultCauseCode t.fault.cause = 0 ∧
    t.out = [] ∧ t.runState = .idle ∧ t.mem = s.mem ∧ t = State.resetWith p s.mem

/-- 70_reset_and_hazards.md R212: while IDLE, LOAD puts image byte k at address k and keeps every other cell and all
other state; in any other RUN_STATE it has no effect. -/
def Obligations.LoadPlacesTheImage : Prop :=
  ∀ (image : List Byte) (s : State), image.length ≤ 256 →
    (s.runState = .idle →
      (∀ k (h : k < image.length), (portLoadImage image 0 s).mem.read k = image[k]) ∧
      (∀ a, image.length ≤ a → (portLoadImage image 0 s).mem.read a = s.mem.read a) ∧
      { portLoadImage image 0 s with mem := s.mem } = s) ∧
    (s.runState ≠ .idle → portLoadImage image 0 s = s)

/-- 70_reset_and_hazards.md R213: START makes a reset and loaded block RUNNING, and its first step fetches at address 0;
START elsewhere has no effect. That the first step keeps the IR it loaded where it faults is the model's choice (log 4). -/
def Obligations.StartRunsFromAddressZero : Prop :=
  (∀ (p : ResetParams) (mem : Memory) (image : List Byte), ∃ s t,
    portAct .start (portLoadImage image 0 (State.resetWith p mem)) = .next s ∧ s.runState = .running ∧ s.pc = 0 ∧
    step s = .next t ∧ t.ir = s.mem.read 0) ∧
  ∀ s : State, s.runState ≠ .idle → portAct .start s = .next s

/-- RESET, LOAD and START by RUN_STATE, and STEP and RUN outside RUNNING (70_reset_and_hazards.md R216); in RUNNING a STEP
is StepRunsTheDecodedInstruction and a RUN RunStopsOnlyAtAnEnd. R216 allows RESET in every RUN_STATE; that it leaves
every cell as it is is R211 read with decision D23 (DEDUCED, log 10). -/
def Obligations.HostInputsByRunState : Prop :=
  ∀ s : State,
    (∀ p, portAct (.reset p) s = .next (State.resetWith p s.mem)) ∧
    (s.runState = .idle →
      (∀ a v, ∃ t, portAct (.load a v) s = .next t ∧ t.mem.read a.toNat = v ∧ MemKeptBut a.toNat s t ∧
        { t with mem := s.mem } = s) ∧
      portAct .start s = .next { s with runState := .running }) ∧
    (s.runState ≠ .idle → (∀ a v, portAct (.load a v) s = .next s) ∧ portAct .start s = .next s) ∧
    (s.runState ≠ .running → portAct .step s = .next s ∧ ∀ fuel, run fuel s = .next s)

/-- RUN repeats STEP while RUNNING (40_cycle.md R107): no fuel leaves the state as it is, and with fuel a RUNNING state
takes one step and runs on from there. It stops where a step halts or faults, and only there: once ended, more fuel
changes nothing, and a RUN that has not ended goes on from where its fuel was gone. -/
def Obligations.RunStopsOnlyAtAnEnd : Prop :=
  (∀ s : State, run 0 s = .next s) ∧
  (∀ s : State, s.runState = .running → ∃ t, step s = .next t ∧ ∀ fuel, run (fuel + 1) s = run fuel t) ∧
  ∀ (fuel more : Nat) (s t : State), run fuel s = .next t →
    (t.runState ≠ .running → run (fuel + more) s = .next t) ∧
    (t.runState = .running → run (fuel + more) s = run more t)

/-- The codes of FAULT_CAUSE at the port (60_exceptions.md R181). -/
def Obligations.FaultCauseCodes : Prop :=
  [FaultCause.noFault, .illegalOpcode, .operandRange, .registerIndex, .divideByZero, .stackPushRange, .stackPopRange,
    .pcRange].map faultCauseCode = [0, 1, 2, 3, 4, 5, 6, 7]

/-! ## Memory -/

/-- Of all steps only PUSH and CALL change a cell, and only the one at SP - 1 (20_memory.md R53). -/
def Obligations.OnlyPushAndCallWriteMemory : Prop :=
  ∀ (s t : State) (a : Nat), s.runState = .running → step s = .next t → t.mem.read a ≠ s.mem.read a →
    (s.byteAt 0 = 0x45 ∨ s.byteAt 0 = 0x50) ∧ s.reg 7 ≠ 0 ∧ a = (s.reg 7 - 1).toNat

/-- 20_memory.md R53: memory is reached only by fetch, PUSH, POP, CALL and RET. A cell that the step neither fetches nor,
for POP and RET, pops has no effect on it; and only PUSH and CALL change a cell, one each. -/
def Obligations.MemoryIsReachedOnlyAsR53Says : Prop :=
  ∀ (s : State) (a : Nat) (v : Byte), s.runState = .running → a ≠ s.pc.toNat →
    (∀ row ∈ opcodeRows, row.1 = s.byteAt 0 → ∀ k, 1 ≤ k → k ≤ row.2.1 → a ≠ s.pc.toNat + k) →
    (s.byteAt 0 = 0x46 ∨ s.byteAt 0 = 0x11 → a ≠ (s.reg 7).toNat) →
    ∃ t u, step s = .next t ∧ step { s with mem := s.mem.write a v } = .next u ∧
      { u with mem := t.mem } = t ∧ MemKeptBut a t u ∧
      (s.byteAt 0 ≠ 0x45 → s.byteAt 0 ≠ 0x50 → MemKept s t) ∧ MemKeptBut (s.reg 7 - 1).toNat s t

/-- Fetch sees the byte that the step before stored (20_memory.md R62). A PUSH, of SP too, over the next opcode byte
completes, and the next step loads IR with what it stored; and after any PUSH or CALL that completes, the next step takes
the stored byte into IR, op1 or op2 where it fetches that address. That a next step which faults keeps the IR and latches
it loaded is the model's choice (log 4). -/
def Obligations.PushedByteIsFetchedNext : Prop :=
  (∀ (s : State) (a : Reg), s.At 0x45 → (s.byteAt 1).toNat = a.val → s.pc.toNat ≤ 252 →
    (s.reg 7).toNat = s.pc.toNat + 3 →
    ∃ t u, step s = .next t ∧ t.runState = .running ∧ step t = .next u ∧
      u.ir = if a = 7 then s.reg 7 - 1 else s.reg a) ∧
  ∀ (s t : State) (stored : Byte),
    (s.At 0x45 ∧ (∃ a : Reg, (s.byteAt 1).toNat = a.val ∧ stored = if a = 7 then s.reg 7 - 1 else s.reg a)) ∨
      (s.At 0x50 ∧ stored.toNat = s.pc.toNat + 2) →
    step s = .next t → t.runState = .running →
    ∃ u, step t = .next u ∧
      (t.pc.toNat = (s.reg 7 - 1).toNat → u.ir = stored) ∧
      ∀ row ∈ opcodeRows, row.1 = t.byteAt 0 → t.pc.toNat + row.2.1 ≤ 255 →
        (1 ≤ row.2.1 → t.pc.toNat + 1 = (s.reg 7 - 1).toNat → u.op1 = stored) ∧
        (2 ≤ row.2.1 → t.pc.toNat + 2 = (s.reg 7 - 1).toNat → u.op2 = stored)

/-! ## Whole steps, instruction by instruction -/

/-- 41_register_stack.md R119. -/
def Obligations.LdiStep : Prop :=
  ∀ s : State, s.At 0x82 → F2RIFaults s ∧
    ∀ a : Reg, (s.byteAt 1).toNat = a.val →
      (s.pc.toNat = 253 → StepFaults s .pcRange 256) ∧
      (s.pc.toNat ≤ 252 → StepCompletes s fun t =>
        t.reg a = s.byteAt 2 ∧ RegsKeptBut [a] s t ∧ t.pc.toNat = s.pc.toNat + 3 ∧
        t.fl = s.fl ∧ t.out = s.out ∧ MemKept s t)

/-- 41_register_stack.md R120. -/
def Obligations.PrnStep : Prop :=
  ∀ s : State, s.At 0x47 → F1RFaults s ∧
    ∀ a : Reg, (s.byteAt 1).toNat = a.val →
      (s.pc.toNat = 254 → StepFaults s .pcRange 256) ∧
      (s.pc.toNat ≤ 253 → StepCompletes s fun t =>
        t.out = s.out ++ [s.reg a] ∧ t.regs = s.regs ∧ t.pc.toNat = s.pc.toNat + 2 ∧ t.fl = s.fl ∧ MemKept s t)

/-- 41_register_stack.md R116 and R121. -/
def Obligations.PushStep : Prop :=
  ∀ s : State, s.At 0x45 → F1RFaults s ∧
    ∀ a : Reg, (s.byteAt 1).toNat = a.val → s.pc.toNat ≤ 254 →
      (s.reg 7 = 0 → StepFaults s .stackPushRange 0) ∧
      (s.reg 7 ≠ 0 → s.pc.toNat = 254 → StepFaults s .pcRange 256) ∧
      (s.reg 7 ≠ 0 → s.pc.toNat ≤ 253 → StepCompletes s fun t =>
        (t.reg 7).toNat + 1 = (s.reg 7).toNat ∧ RegsKeptBut [7] s t ∧
        t.mem.read (t.reg 7).toNat = (if a = 7 then t.reg 7 else s.reg a) ∧ MemKeptBut (s.reg 7 - 1).toNat s t ∧
        t.pc.toNat = s.pc.toNat + 2 ∧ t.fl = s.fl ∧ t.out = s.out)

/-- 41_register_stack.md R117 and R122. -/
def Obligations.PopStep : Prop :=
  ∀ s : State, s.At 0x46 → F1RFaults s ∧
    ∀ a : Reg, (s.byteAt 1).toNat = a.val → s.pc.toNat ≤ 254 →
      ∀ toIncrement : Byte, toIncrement = (if a = 7 then s.mem.read (s.reg 7).toNat else s.reg 7) →
        (toIncrement = 255 → StepFaults s .stackPopRange 255) ∧
        (toIncrement ≠ 255 → s.pc.toNat = 254 → StepFaults s .pcRange 256) ∧
        (toIncrement ≠ 255 → s.pc.toNat ≤ 253 → StepCompletes s fun t =>
          (a ≠ 7 → t.reg a = s.mem.read (s.reg 7).toNat) ∧ (t.reg 7).toNat = toIncrement.toNat + 1 ∧
          RegsKeptBut [a, 7] s t ∧ MemKept s t ∧ t.pc.toNat = s.pc.toNat + 2 ∧ t.fl = s.fl ∧ t.out = s.out)

/-- 42_alu.md R133, R134, R135: ADD, SUB and MUL on exact integers, reduced mod 256. -/
def Obligations.AddSubMulStep : Prop :=
  ∀ row ∈ ([(0xA0, fun x y => (x + y) % 256), (0xA1, fun x y => (x - y) % 256), (0xA2, fun x y => (x * y) % 256)] :
      List (Byte × (Int → Int → Int))),
    ∀ s : State, s.At row.1 → F2RRFaults s ∧
      ∀ a b : Reg, (s.byteAt 1).toNat = a.val → (s.byteAt 2).toNat = b.val →
        (s.pc.toNat = 253 → StepFaults s .pcRange 256) ∧
        (s.pc.toNat ≤ 252 → StepCompletes s fun t =>
          ((t.reg a).toNat : Int) = row.2 (s.reg a).toNat (s.reg b).toNat ∧ RegsKeptBut [a] s t ∧
          t.pc.toNat = s.pc.toNat + 3 ∧ t.fl = s.fl ∧ t.out = s.out ∧ MemKept s t)

/-- 42_alu.md R136, R137: DIV and MOD. -/
def Obligations.DivModStep : Prop :=
  ∀ row ∈ ([(0xA3, fun x y => x / y), (0xA4, fun x y => x % y)] : List (Byte × (Nat → Nat → Nat))),
    ∀ s : State, s.At row.1 → F2RRFaults s ∧
      ∀ a b : Reg, (s.byteAt 1).toNat = a.val → (s.byteAt 2).toNat = b.val → s.pc.toNat ≤ 253 →
        (s.reg b = 0 → StepFaults s .divideByZero b.val) ∧
        (s.reg b ≠ 0 → s.pc.toNat = 253 → StepFaults s .pcRange 256) ∧
        (s.reg b ≠ 0 → s.pc.toNat ≤ 252 → StepCompletes s fun t =>
          (t.reg a).toNat = row.2 (s.reg a).toNat (s.reg b).toNat ∧ RegsKeptBut [a] s t ∧
          t.pc.toNat = s.pc.toNat + 3 ∧ t.fl = s.fl ∧ t.out = s.out ∧ MemKept s t)

/-- 42_alu.md R138, R139, R140: AND, OR and XOR, bit by bit. -/
def Obligations.AndOrXorStep : Prop :=
  ∀ row ∈ ([(0xA8, Bool.and), (0xAA, Bool.or), (0xAB, Bool.xor)] : List (Byte × (Bool → Bool → Bool))),
    ∀ s : State, s.At row.1 → F2RRFaults s ∧
      ∀ a b : Reg, (s.byteAt 1).toNat = a.val → (s.byteAt 2).toNat = b.val →
        (s.pc.toNat = 253 → StepFaults s .pcRange 256) ∧
        (s.pc.toNat ≤ 252 → StepCompletes s fun t =>
          (∀ k < 8, (t.reg a).getLsbD k = row.2 ((s.reg a).getLsbD k) ((s.reg b).getLsbD k)) ∧ RegsKeptBut [a] s t ∧
          t.pc.toNat = s.pc.toNat + 3 ∧ t.fl = s.fl ∧ t.out = s.out ∧ MemKept s t)

/-- 42_alu.md R141. -/
def Obligations.NotStep : Prop :=
  ∀ s : State, s.At 0x69 → F1RFaults s ∧
    ∀ a : Reg, (s.byteAt 1).toNat = a.val →
      (s.pc.toNat = 254 → StepFaults s .pcRange 256) ∧
      (s.pc.toNat ≤ 253 → StepCompletes s fun t =>
        t.reg a = ~~~ s.reg a ∧ (t.reg a).toNat = 255 - (s.reg a).toNat ∧ RegsKeptBut [a] s t ∧
        t.pc.toNat = s.pc.toNat + 2 ∧ t.fl = s.fl ∧ t.out = s.out ∧ MemKept s t)

/-- 42_alu.md R142, R143: SHL and SHR by the whole value of x[rb], 00_scope.md R11's `<<` and `>>`. -/
def Obligations.ShiftStep : Prop :=
  ∀ row ∈ ([(0xAC, fun x n => x * 2 ^ n % 256), (0xAD, fun x n => x / 2 ^ n)] : List (Byte × (Nat → Nat → Nat))),
    ∀ s : State, s.At row.1 → F2RRFaults s ∧
      ∀ a b : Reg, (s.byteAt 1).toNat = a.val → (s.byteAt 2).toNat = b.val →
        (s.pc.toNat = 253 → StepFaults s .pcRange 256) ∧
        (s.pc.toNat ≤ 252 → StepCompletes s fun t =>
          (t.reg a).toNat = row.2 (s.reg a).toNat (s.reg b).toNat ∧
          ((s.reg b).toNat ≥ 8 → t.reg a = 0) ∧ RegsKeptBut [a] s t ∧
          t.pc.toNat = s.pc.toNat + 3 ∧ t.fl = s.fl ∧ t.out = s.out ∧ MemKept s t)

/-- 42_alu.md R144: unsigned, exactly one of L, G and E. -/
def Obligations.CmpStep : Prop :=
  ∀ s : State, s.At 0xA7 → F2RRFaults s ∧
    ∀ a b : Reg, (s.byteAt 1).toNat = a.val → (s.byteAt 2).toNat = b.val →
      (s.pc.toNat = 253 → StepFaults s .pcRange 256) ∧
      (s.pc.toNat ≤ 252 → StepCompletes s fun t =>
        ((s.reg a).toNat < (s.reg b).toNat → t.fl = 0b100) ∧ ((s.reg a).toNat > (s.reg b).toNat → t.fl = 0b010) ∧
        ((s.reg a).toNat = (s.reg b).toNat → t.fl = 0b001) ∧ t.regs = s.regs ∧
        t.pc.toNat = s.pc.toNat + 3 ∧ t.out = s.out ∧ MemKept s t)

/-- 43_control_flow.md R161. -/
def Obligations.CallStep : Prop :=
  ∀ s : State, s.At 0x50 → F1RFaults s ∧
    ∀ a : Reg, (s.byteAt 1).toNat = a.val →
      (s.pc.toNat = 254 → StepFaults s .pcRange 256) ∧
      (s.pc.toNat ≤ 253 → s.reg 7 = 0 → StepFaults s .stackPushRange 0) ∧
      (s.pc.toNat ≤ 253 → s.reg 7 ≠ 0 → StepCompletes s fun t =>
        (t.reg 6).toNat = s.pc.toNat + 2 ∧ (t.reg 7).toNat + 1 = (s.reg 7).toNat ∧ RegsKeptBut [6, 7] s t ∧
        t.mem.read (t.reg 7).toNat = t.reg 6 ∧ MemKeptBut (s.reg 7 - 1).toNat s t ∧
        t.pc = t.reg a ∧ t.fl = s.fl ∧ t.out = s.out)

/-- 43_control_flow.md R162. -/
def Obligations.RetStep : Prop :=
  ∀ s : State, s.At 0x11 →
    (s.reg 7 = 255 → StepFaults s .stackPopRange 255) ∧
    (s.reg 7 ≠ 255 → StepCompletes s fun t =>
      t.reg 6 = s.mem.read (s.reg 7).toNat ∧ (t.reg 7).toNat = (s.reg 7).toNat + 1 ∧ RegsKeptBut [6, 7] s t ∧
      t.pc = s.mem.read (s.reg 7).toNat ∧ t.fl = s.fl ∧ t.out = s.out ∧ MemKept s t)

/-- 43_control_flow.md R163. -/
def Obligations.JmpStep : Prop :=
  ∀ s : State, s.At 0x54 → F1RFaults s ∧
    ∀ a : Reg, (s.byteAt 1).toNat = a.val → s.pc.toNat ≤ 254 → StepCompletes s fun t =>
      t.pc = s.reg a ∧ t.regs = s.regs ∧ t.fl = s.fl ∧ t.out = s.out ∧ MemKept s t

/-- 43_control_flow.md R164, R165: JEQ is taken when FL.E is 1, JNE when it is 0. -/
def Obligations.BranchStep : Prop :=
  ∀ row ∈ ([(0x55, true), (0x56, false)] : List (Byte × Bool)),
    ∀ s : State, s.At row.1 → F1RFaults s ∧
      ∀ a : Reg, (s.byteAt 1).toNat = a.val → s.pc.toNat ≤ 254 →
        (s.fl.getLsbD 0 = row.2 → StepCompletes s fun t =>
          t.pc = s.reg a ∧ t.regs = s.regs ∧ t.fl = s.fl ∧ t.out = s.out ∧ MemKept s t) ∧
        (s.fl.getLsbD 0 ≠ row.2 → s.pc.toNat = 254 → StepFaults s .pcRange 256) ∧
        (s.fl.getLsbD 0 ≠ row.2 → s.pc.toNat ≤ 253 → StepCompletes s fun t =>
          t.pc.toNat = s.pc.toNat + 2 ∧ t.regs = s.regs ∧ t.fl = s.fl ∧ t.out = s.out ∧ MemKept s t)

/-- 40_cycle.md R98, R99: at every PC, 255 included; and nothing but a RESET changes the state after it. R98 fetches no
operand; that a latch which is not fetched keeps its byte is the model's choice (log 4). -/
def Obligations.HltStep : Prop :=
  ∀ s : State, s.At 0x01 →
    ∃ t, step s = .next t ∧ t.runState = .halted ∧ t.fault = s.fault ∧ KeepsArch s t ∧
      t.op1 = s.op1 ∧ t.op2 = s.op2 ∧
      ∀ es : List PortEvent, (∀ p, PortEvent.reset p ∉ es) → portAll es t = .next t

/-! ## Where each instruction completes, with its whole next state -/

/-- HLT, LDI, PRN and NOT. -/
def Obligations.HltLdiPrnNotComplete : Prop :=
  ∀ (s : State) (ra imm : Byte) (a : Reg), ra.toNat = a.val →
    exec .hlt s = .next { s with runState := .halted } ∧
    (s.pc.toNat ≤ 252 →
      exec (.ldi ra imm) s = .next { s with regs := s.regs.set a.val imm, pc := s.pc + 3 }) ∧
    (s.pc.toNat ≤ 253 →
      exec (.prn ra) s = .next { s with out := s.out ++ [s.reg a], pc := s.pc + 2 } ∧
      exec (.not ra) s = .next { s with regs := s.regs.set a.val (~~~ s.reg a), pc := s.pc + 2 })

/-- PUSH and POP, for the registers other than SP and for SP itself. -/
def Obligations.PushPopComplete : Prop :=
  ∀ (s : State) (ra : Byte) (a : Reg), ra.toNat = a.val → s.pc.toNat ≤ 253 →
    (s.reg 7 ≠ 0 →
      exec (.push ra) s = .next { s with
        regs := s.regs.set 7 (s.reg 7 - 1)
        mem := s.mem.write (s.reg 7 - 1).toNat (if a = 7 then s.reg 7 - 1 else s.reg a)
        pc := s.pc + 2 }) ∧
    (a ≠ 7 → s.reg 7 ≠ 255 →
      exec (.pop ra) s = .next { s with
        regs := (s.regs.set a.val (s.mem.read (s.reg 7).toNat)).set 7 (s.reg 7 + 1)
        pc := s.pc + 2 }) ∧
    (a = 7 → s.mem.read (s.reg 7).toNat ≠ 255 →
      exec (.pop ra) s = .next { s with
        regs := s.regs.set 7 (s.mem.read (s.reg 7).toNat + 1)
        pc := s.pc + 2 })

/-- ADD, SUB, MUL, AND, OR, XOR, SHL and SHR. -/
def Obligations.BinaryAluComplete : Prop :=
  ∀ (s : State) (ra rb : Byte) (a b : Reg), ra.toNat = a.val → rb.toNat = b.val → s.pc.toNat ≤ 252 →
    exec (.add ra rb) s = .next { s with regs := s.regs.set a.val (s.reg a + s.reg b), pc := s.pc + 3 } ∧
    exec (.sub ra rb) s = .next { s with regs := s.regs.set a.val (s.reg a - s.reg b), pc := s.pc + 3 } ∧
    exec (.mul ra rb) s = .next { s with regs := s.regs.set a.val (s.reg a * s.reg b), pc := s.pc + 3 } ∧
    exec (.and ra rb) s = .next { s with regs := s.regs.set a.val (s.reg a &&& s.reg b), pc := s.pc + 3 } ∧
    exec (.or ra rb) s = .next { s with regs := s.regs.set a.val (s.reg a ||| s.reg b), pc := s.pc + 3 } ∧
    exec (.xor ra rb) s = .next { s with regs := s.regs.set a.val (s.reg a ^^^ s.reg b), pc := s.pc + 3 } ∧
    exec (.shl ra rb) s = .next { s with regs := s.regs.set a.val (s.reg a <<< (s.reg b).toNat), pc := s.pc + 3 } ∧
    exec (.shr ra rb) s = .next { s with regs := s.regs.set a.val (s.reg a >>> (s.reg b).toNat), pc := s.pc + 3 }

/-- DIV and MOD where the divisor register is not 0, and CMP. -/
def Obligations.DivModCmpComplete : Prop :=
  ∀ (s : State) (ra rb : Byte) (a b : Reg), ra.toNat = a.val → rb.toNat = b.val → s.pc.toNat ≤ 252 →
    (s.reg b ≠ 0 →
      exec (.div ra rb) s = .next { s with regs := s.regs.set a.val (s.reg a / s.reg b), pc := s.pc + 3 } ∧
      exec (.mod ra rb) s = .next { s with regs := s.regs.set a.val (s.reg a % s.reg b), pc := s.pc + 3 }) ∧
    exec (.cmp ra rb) s = .next { s with
      fl := if s.reg a < s.reg b then 0b100 else if s.reg b < s.reg a then 0b010 else 0b001
      pc := s.pc + 3 }

/-- CALL, RET, JMP, JEQ and JNE. -/
def Obligations.ControlFlowCompletes : Prop :=
  ∀ (s : State) (ra : Byte) (a : Reg), ra.toNat = a.val →
    (s.pc.toNat ≤ 253 → s.reg 7 ≠ 0 →
      exec (.call ra) s = .next { s with
        regs := (s.regs.set 6 (s.pc + 2)).set 7 (s.reg 7 - 1)
        mem := s.mem.write (s.reg 7 - 1).toNat (s.pc + 2)
        pc := if a = 6 then s.pc + 2 else if a = 7 then s.reg 7 - 1 else s.reg a }) ∧
    (s.reg 7 ≠ 255 →
      exec .ret s = .next { s with
        regs := (s.regs.set 6 (s.mem.read (s.reg 7).toNat)).set 7 (s.reg 7 + 1)
        pc := s.mem.read (s.reg 7).toNat }) ∧
    exec (.jmp ra) s = .next { s with pc := s.reg a } ∧
    (s.fl.getLsbD 0 = true → exec (.jeq ra) s = .next { s with pc := s.reg a }) ∧
    (s.fl.getLsbD 0 = false → exec (.jne ra) s = .next { s with pc := s.reg a }) ∧
    (s.fl.getLsbD 0 = false → s.pc.toNat ≤ 253 → exec (.jeq ra) s = .next { s with pc := s.pc + 2 }) ∧
    (s.fl.getLsbD 0 = true → s.pc.toNat ≤ 253 → exec (.jne ra) s = .next { s with pc := s.pc + 2 })

/-! ## Frames: every next state, the fault entries among them -/

/-- The forms whose destination is the register of op1: LDI, the eleven ALU forms but CMP. -/
def Obligations.RegisterDestinationFrame : Prop :=
  ∀ (ra rb : Byte), ∀ i ∈ [Instr.ldi ra rb, .add ra rb, .sub ra rb, .mul ra rb, .div ra rb, .mod ra rb, .and ra rb,
      .or ra rb, .xor ra rb, .not ra, .shl ra rb, .shr ra rb],
    ∀ s t : State, exec i s = .next t →
      (∀ r : Reg, r.val ≠ ra.toNat → t.reg r = s.reg r) ∧ t.fl = s.fl ∧ t.out = s.out ∧ MemKept s t ∧
      LatchesKept s t ∧ (StatusKept s t ∨ ∃ cause info, FaultTaken s t s.ir cause info)

/-- The forms that write no register and no memory: HLT, PRN, CMP, JMP, JEQ, JNE. FL changes in CMP only, OUT in PRN
only, RUN_STATE in HLT only (and where a fault is taken). -/
def Obligations.NoDestinationFrame : Prop :=
  ∀ (ra rb : Byte), ∀ i ∈ [Instr.hlt, .prn ra, .cmp ra rb, .jmp ra, .jeq ra, .jne ra],
    ∀ s t : State, exec i s = .next t →
      t.regs = s.regs ∧ MemKept s t ∧ LatchesKept s t ∧
      (i ≠ .cmp ra rb → t.fl = s.fl) ∧ (i ≠ .prn ra → t.out = s.out) ∧
      (StatusKept s t ∨ (i = .hlt ∧ t.runState = .halted ∧ t.fault = s.fault ∧ t.pc = s.pc) ∨
        ∃ cause info, FaultTaken s t s.ir cause info)

/-- The storing forms PUSH and CALL: only the cell at the decremented SP may change; SP, and R6 for CALL, are the only
registers written. -/
def Obligations.StoringFrame : Prop :=
  ∀ (ra : Byte), ∀ i ∈ [Instr.push ra, .call ra],
    ∀ s t : State, exec i s = .next t →
      (∀ r : Reg, r ≠ 7 → (i = .call ra → r ≠ 6) → t.reg r = s.reg r) ∧ t.fl = s.fl ∧ t.out = s.out ∧
      MemKeptBut (s.sp - 1).toNat s t ∧ LatchesKept s t ∧
      (StatusKept s t ∨ ∃ cause info, FaultTaken s t s.ir cause info)

/-- The forms that read the stack, POP and RET: no cell changes; SP and the destination register, R6 for RET, are the
only registers written. -/
def Obligations.PoppingFrame : Prop :=
  ∀ (ra : Byte), ∀ i ∈ [Instr.pop ra, .ret],
    ∀ s t : State, exec i s = .next t →
      (∀ r : Reg, r ≠ 7 → (i = .pop ra → r.val ≠ ra.toNat) → (i = .ret → r ≠ 6) → t.reg r = s.reg r) ∧
      t.fl = s.fl ∧ t.out = s.out ∧ MemKept s t ∧ LatchesKept s t ∧
      (StatusKept s t ∨ ∃ cause info, FaultTaken s t s.ir cause info)

/-! ## Laws -/

/-- 41_register_stack.md R118: any sequence of pushes followed by the same pops in reverse order restores every register,
SP among them, where no step of it faults (SP has room below and the PC room above). -/
def Obligations.PushesThenPopsRestoreRegisters : Prop :=
  ∀ (rs : List Reg) (s : State), rs.length ≤ (s.reg 7).toNat → s.pc.toNat + 4 * rs.length ≤ 255 →
    ∃ t, execAll (rs.map (fun r => Instr.push (BitVec.ofNat 8 r.val)) ++
        rs.reverse.map (fun r => Instr.pop (BitVec.ofNat 8 r.val))) s = .next t ∧
      (∀ r : Reg, t.reg r = s.reg r) ∧ StatusKept s t ∧ t.fl = s.fl ∧ t.out = s.out

/-- 43_control_flow.md R168: a CALL into a RET returns to the instruction after the CALL. -/
def Obligations.CallThenRetReturns : Prop :=
  ∀ s t : State, s.At 0x50 → (s.byteAt 1).toNat ≤ 7 → s.pc.toNat ≤ 253 → s.reg 7 ≠ 0 →
    step s = .next t → t.byteAt 0 = 0x11 →
    ∃ u, step t = .next u ∧ u.runState = .running ∧ u.pc.toNat = s.pc.toNat + 2 ∧ u.reg 7 = s.reg 7 ∧
      (u.reg 6).toNat = s.pc.toNat + 2 ∧ (u.mem.read (s.reg 7 - 1).toNat).toNat = s.pc.toNat + 2

/-- 42_alu.md R145: both operands the same register. -/
def Obligations.SameRegisterResults : Prop :=
  ∀ (s : State) (ra : Byte) (a : Reg) (v : Nat), ra.toNat = a.val → s.pc.toNat ≤ 252 → v = (s.reg a).toNat →
    (∀ row ∈ [(Instr.add ra ra, 2 * v % 256), (.sub ra ra, 0), (.mul ra ra, v * v % 256), (.and ra ra, v), (.or ra ra, v),
        (.xor ra ra, 0), (.shl ra ra, [0, 2, 8, 24, 64, 160, 128, 128].getD v 0), (.shr ra ra, 0)],
      ∃ t, exec row.1 s = .next t ∧ StatusKept s t ∧ (t.reg a).toNat = row.2) ∧
    (v ≠ 0 → ∀ row ∈ [(Instr.div ra ra, 1), (.mod ra ra, 0)],
      ∃ t, exec row.1 s = .next t ∧ StatusKept s t ∧ (t.reg a).toNat = row.2) ∧
    (v = 0 → ExecFaults (.div ra ra) s .divideByZero a.val ∧ ExecFaults (.mod ra ra) s .divideByZero a.val) ∧
    ∃ t, exec (.cmp ra ra) s = .next t ∧ StatusKept s t ∧ t.fl = 0b001

/-- Quotient and remainder fit together (42_alu.md R137, R146). -/
def Obligations.QuotientAndRemainderFit : Prop :=
  ∀ (s : State) (ra rb : Byte) (a b : Reg), ra.toNat = a.val → rb.toNat = b.val → s.pc.toNat ≤ 252 → s.reg b ≠ 0 →
    ∃ t u, exec (.div ra rb) s = .next t ∧ exec (.mod ra rb) s = .next u ∧
      (s.reg b).toNat * (t.reg a).toNat + (u.reg a).toNat = (s.reg a).toNat ∧
      (u.reg a).toNat < (s.reg b).toNat ∧ (t.reg a).toNat ≤ (s.reg a).toNat

/-- Two-instruction laws of the ALU, from 42_alu.md R133, R134 and R141 to R143: SUB undoes ADD, NOT undoes NOT, and SHR
after SHL by less than 8 keeps the low bits. -/
def Obligations.AluUndoLaws : Prop :=
  ∀ (s : State) (ra rb : Byte) (a b : Reg), ra.toNat = a.val → rb.toNat = b.val → a ≠ b → s.pc.toNat ≤ 249 →
    (∃ t, execAll [.add ra rb, .sub ra rb] s = .next t ∧ StatusKept s t ∧ ∀ r : Reg, t.reg r = s.reg r) ∧
    (∃ t, execAll [.not ra, .not ra] s = .next t ∧ StatusKept s t ∧ ∀ r : Reg, t.reg r = s.reg r) ∧
    ((s.reg b).toNat < 8 → ∃ t, execAll [.shl ra rb, .shr ra rb] s = .next t ∧ StatusKept s t ∧
      (t.reg a).toNat = (s.reg a).toNat % 2 ^ (8 - (s.reg b).toNat) ∧ RegsKeptBut [a] s t)
end

