-- ==== Sys2Proof/Laws/Memory.lean ====
section
/-! SUPPORT. Memory: a read sees the last write (20_memory.md R59), and every operation keeps the canonical
form. -/

namespace Sys2Proof.Machine.Memory

@[simp] theorem read_nil (a : Nat) : read [] a = Config.unlistedByte := rfl

theorem read_cons (c : Host.Cell) (m : Memory) (a : Nat) :
    read (c :: m) a = if c.1 = a then c.2 else read m a := rfl

theorem read_insert (m : Memory) (a b : Nat) (v : Byte) (h : ∀ c ∈ m, c.1 ≠ a) :
    read (insert a v m) b = if a = b then v else read m b := by
  induction m with
  | nil => simp [insert, read_cons]
  | cons c m ih =>
    have ih := ih fun d hd => h d (List.mem_cons_of_mem c hd)
    have hc : c.1 ≠ a := h c List.mem_cons_self
    simp only [insert]
    split
    · simp only [read_cons, ih]
      by_cases hb : c.1 = b
      · simp [hb, show a ≠ b from fun e => hc (hb.trans e.symm)]
      · simp [hb]
    · simp only [read_cons]

theorem read_erase (m : Memory) (a b : Nat) :
    read (m.filter fun c => c.1 != a) b = if a = b then Config.unlistedByte else read m b := by
  induction m with
  | nil => simp
  | cons c m ih =>
    by_cases hc : c.1 = a
    · simp only [hc, bne_self_eq_false, Bool.false_eq_true, not_false_eq_true, List.filter_cons_of_neg, ih, read_cons]
      split <;> simp_all
    · have hk : (fun c : Host.Cell => c.1 != a) c = true := by simpa using hc
      rw [List.filter_cons_of_pos (p := fun c : Host.Cell => c.1 != a) hk]
      simp only [read_cons, ih]
      by_cases hb : c.1 = b
      · simp [hb, show a ≠ b from fun e => hc (hb.trans e.symm)]
      · simp [hb]

/-- What a cell reads as after a write, in any memory (20_memory.md R52, R59). -/
theorem read_write (m : Memory) (a b : Nat) (v : Byte) :
    (m.write a v).read b = if a = b then v else m.read b := by
  have h : ∀ c ∈ m.filter (fun c => c.1 != a), c.1 ≠ a := by simp
  unfold write
  split
  · rename_i hv
    simp only [read_erase, hv]
  · rw [read_insert _ _ _ _ h, read_erase]
    split <;> rfl

@[simp] theorem read_write_same (m : Memory) (a : Nat) (v : Byte) : (m.write a v).read a = v := by
  simp [read_write]

theorem read_write_other (m : Memory) (a b : Nat) (v : Byte) (h : b ≠ a) : (m.write a v).read b = m.read b := by
  simp [read_write, h.symm]

theorem mem_insert {m : Memory} {a : Nat} {v : Byte} {c : Host.Cell} : c ∈ insert a v m ↔ c = (a, v) ∨ c ∈ m := by
  induction m with
  | nil => simp [insert]
  | cons d m ih =>
    simp only [insert]
    split
    · simp only [List.mem_cons, ih]
      tauto
    · simp only [List.mem_cons]

theorem pairwise_insert {m : Memory} {a : Nat} {v : Byte} (hm : m.Pairwise fun c d => c.1 < d.1)
    (h : ∀ c ∈ m, c.1 ≠ a) : (insert a v m).Pairwise fun c d => c.1 < d.1 := by
  induction m with
  | nil => simp [insert]
  | cons d m ih =>
    obtain ⟨hd, hm⟩ := List.pairwise_cons.mp hm
    have hne : d.1 ≠ a := h d List.mem_cons_self
    simp only [insert]
    split
    · refine List.pairwise_cons.mpr ⟨fun c hc => ?_, ih hm fun c hc => h c (List.mem_cons_of_mem d hc)⟩
      rcases mem_insert.mp hc with rfl | hc
      · assumption
      · exact hd c hc
    · refine List.pairwise_cons.mpr ⟨fun c hc => ?_, List.pairwise_cons.mpr ⟨hd, hm⟩⟩
      rcases List.mem_cons.mp hc with rfl | hc
      · simp only
        omega
      · have := hd c hc
        simp only
        omega

/-- Every write inside 0..255 keeps the canonical form. -/
theorem wf_write {m : Memory} (hm : m.wf) {a : Nat} (ha : a < Config.memSize) (v : Byte) : (m.write a v).wf := by
  obtain ⟨hs, hc⟩ := hm
  have hs' := hs.filter fun c => c.1 != a
  have hc' : ∀ c ∈ m.filter (fun c => c.1 != a), c.1 < Config.memSize ∧ c.2 ≠ Config.unlistedByte :=
    fun c h => hc c (List.mem_of_mem_filter h)
  unfold write
  split
  · exact ⟨hs', hc'⟩
  · rename_i hv
    refine ⟨pairwise_insert hs' (by simp), fun c h => ?_⟩
    rcases mem_insert.mp h with rfl | h
    · exact ⟨ha, hv⟩
    · exact hc' c h

/-- Placing an instruction's bytes keeps the canonical form. -/
theorem wf_writeCells (vs : List Byte) (a : Nat) {m : Memory} (hm : m.wf) : (writeCells vs a m).wf := by
  induction vs generalizing a m with
  | nil => exact hm
  | cons v vs ih =>
    simp only [writeCells]
    split
    · exact hm
    · exact ih (a + 1) (wf_write hm (by simp only [Config.memSize]; omega) v)

/-- The memory of `State.reset` is in canonical form. -/
theorem wf_reset : State.reset.mem.wf := by decide

end Sys2Proof.Machine.Memory
end

