-- ==== Sys2Proof/Laws/State.lean ====
section
/-! SUPPORT. One lemma per field per update of the state, so that no proof unfolds a record update. -/

namespace Sys2Proof.Machine.State

variable (s : State)

@[simp] theorem setReg_regs (r : Reg) (v : Byte) : (s.setReg r v).regs = s.regs.set r.val v := rfl
@[simp] theorem setReg_pc (r : Reg) (v : Byte) : (s.setReg r v).pc = s.pc := rfl
@[simp] theorem setReg_fl (r : Reg) (v : Byte) : (s.setReg r v).fl = s.fl := rfl
@[simp] theorem setReg_ir (r : Reg) (v : Byte) : (s.setReg r v).ir = s.ir := rfl
@[simp] theorem setReg_op1 (r : Reg) (v : Byte) : (s.setReg r v).op1 = s.op1 := rfl
@[simp] theorem setReg_op2 (r : Reg) (v : Byte) : (s.setReg r v).op2 = s.op2 := rfl
@[simp] theorem setReg_mem (r : Reg) (v : Byte) : (s.setReg r v).mem = s.mem := rfl
@[simp] theorem setReg_runState (r : Reg) (v : Byte) : (s.setReg r v).runState = s.runState := rfl
@[simp] theorem setReg_fault (r : Reg) (v : Byte) : (s.setReg r v).fault = s.fault := rfl
@[simp] theorem setReg_out (r : Reg) (v : Byte) : (s.setReg r v).out = s.out := rfl

@[simp] theorem setPc_regs (a : Byte) : (s.setPc a).regs = s.regs := rfl
@[simp] theorem setPc_pc (a : Byte) : (s.setPc a).pc = a := rfl
@[simp] theorem setPc_fl (a : Byte) : (s.setPc a).fl = s.fl := rfl
@[simp] theorem setPc_ir (a : Byte) : (s.setPc a).ir = s.ir := rfl
@[simp] theorem setPc_op1 (a : Byte) : (s.setPc a).op1 = s.op1 := rfl
@[simp] theorem setPc_op2 (a : Byte) : (s.setPc a).op2 = s.op2 := rfl
@[simp] theorem setPc_mem (a : Byte) : (s.setPc a).mem = s.mem := rfl
@[simp] theorem setPc_runState (a : Byte) : (s.setPc a).runState = s.runState := rfl
@[simp] theorem setPc_fault (a : Byte) : (s.setPc a).fault = s.fault := rfl
@[simp] theorem setPc_out (a : Byte) : (s.setPc a).out = s.out := rfl

@[simp] theorem setFl_regs (f : BitVec 3) : (s.setFl f).regs = s.regs := rfl
@[simp] theorem setFl_pc (f : BitVec 3) : (s.setFl f).pc = s.pc := rfl
@[simp] theorem setFl_fl (f : BitVec 3) : (s.setFl f).fl = f := rfl
@[simp] theorem setFl_ir (f : BitVec 3) : (s.setFl f).ir = s.ir := rfl
@[simp] theorem setFl_op1 (f : BitVec 3) : (s.setFl f).op1 = s.op1 := rfl
@[simp] theorem setFl_op2 (f : BitVec 3) : (s.setFl f).op2 = s.op2 := rfl
@[simp] theorem setFl_mem (f : BitVec 3) : (s.setFl f).mem = s.mem := rfl
@[simp] theorem setFl_runState (f : BitVec 3) : (s.setFl f).runState = s.runState := rfl
@[simp] theorem setFl_fault (f : BitVec 3) : (s.setFl f).fault = s.fault := rfl
@[simp] theorem setFl_out (f : BitVec 3) : (s.setFl f).out = s.out := rfl

@[simp] theorem emit_regs (v : Byte) : (s.emit v).regs = s.regs := rfl
@[simp] theorem emit_pc (v : Byte) : (s.emit v).pc = s.pc := rfl
@[simp] theorem emit_fl (v : Byte) : (s.emit v).fl = s.fl := rfl
@[simp] theorem emit_ir (v : Byte) : (s.emit v).ir = s.ir := rfl
@[simp] theorem emit_op1 (v : Byte) : (s.emit v).op1 = s.op1 := rfl
@[simp] theorem emit_op2 (v : Byte) : (s.emit v).op2 = s.op2 := rfl
@[simp] theorem emit_mem (v : Byte) : (s.emit v).mem = s.mem := rfl
@[simp] theorem emit_runState (v : Byte) : (s.emit v).runState = s.runState := rfl
@[simp] theorem emit_fault (v : Byte) : (s.emit v).fault = s.fault := rfl
@[simp] theorem emit_out (v : Byte) : (s.emit v).out = s.out ++ [v] := rfl

@[simp] theorem store_regs (a v : Byte) : (s.store a v).regs = s.regs := rfl
@[simp] theorem store_pc (a v : Byte) : (s.store a v).pc = s.pc := rfl
@[simp] theorem store_fl (a v : Byte) : (s.store a v).fl = s.fl := rfl
@[simp] theorem store_ir (a v : Byte) : (s.store a v).ir = s.ir := rfl
@[simp] theorem store_op1 (a v : Byte) : (s.store a v).op1 = s.op1 := rfl
@[simp] theorem store_op2 (a v : Byte) : (s.store a v).op2 = s.op2 := rfl
@[simp] theorem store_mem (a v : Byte) : (s.store a v).mem = s.mem.write a.toNat v := rfl
@[simp] theorem store_runState (a v : Byte) : (s.store a v).runState = s.runState := rfl
@[simp] theorem store_fault (a v : Byte) : (s.store a v).fault = s.fault := rfl
@[simp] theorem store_out (a v : Byte) : (s.store a v).out = s.out := rfl

@[simp] theorem halt_regs : (s.halt).regs = s.regs := rfl
@[simp] theorem halt_pc : (s.halt).pc = s.pc := rfl
@[simp] theorem halt_fl : (s.halt).fl = s.fl := rfl
@[simp] theorem halt_ir : (s.halt).ir = s.ir := rfl
@[simp] theorem halt_op1 : (s.halt).op1 = s.op1 := rfl
@[simp] theorem halt_op2 : (s.halt).op2 = s.op2 := rfl
@[simp] theorem halt_mem : (s.halt).mem = s.mem := rfl
@[simp] theorem halt_runState : (s.halt).runState = .halted := rfl
@[simp] theorem halt_fault : (s.halt).fault = s.fault := rfl
@[simp] theorem halt_out : (s.halt).out = s.out := rfl

@[simp] theorem latch_regs (ir : Byte) (ops : List Byte) : (s.latch ir ops).regs = s.regs := rfl
@[simp] theorem latch_pc (ir : Byte) (ops : List Byte) : (s.latch ir ops).pc = s.pc := rfl
@[simp] theorem latch_fl (ir : Byte) (ops : List Byte) : (s.latch ir ops).fl = s.fl := rfl
@[simp] theorem latch_ir (ir : Byte) (ops : List Byte) : (s.latch ir ops).ir = ir := rfl
@[simp] theorem latch_op1 (ir : Byte) (ops : List Byte) : (s.latch ir ops).op1 = ops.getD 0 s.op1 := rfl
@[simp] theorem latch_op2 (ir : Byte) (ops : List Byte) : (s.latch ir ops).op2 = ops.getD 1 s.op2 := rfl
@[simp] theorem latch_mem (ir : Byte) (ops : List Byte) : (s.latch ir ops).mem = s.mem := rfl
@[simp] theorem latch_runState (ir : Byte) (ops : List Byte) : (s.latch ir ops).runState = s.runState := rfl
@[simp] theorem latch_fault (ir : Byte) (ops : List Byte) : (s.latch ir ops).fault = s.fault := rfl
@[simp] theorem latch_out (ir : Byte) (ops : List Byte) : (s.latch ir ops).out = s.out := rfl

@[simp] theorem enterFault_regs (r : Raise) : (s.enterFault r).regs = s.regs := rfl
@[simp] theorem enterFault_pc (r : Raise) : (s.enterFault r).pc = s.pc := rfl
@[simp] theorem enterFault_fl (r : Raise) : (s.enterFault r).fl = s.fl := rfl
@[simp] theorem enterFault_ir (r : Raise) : (s.enterFault r).ir = s.ir := rfl
@[simp] theorem enterFault_op1 (r : Raise) : (s.enterFault r).op1 = s.op1 := rfl
@[simp] theorem enterFault_op2 (r : Raise) : (s.enterFault r).op2 = s.op2 := rfl
@[simp] theorem enterFault_mem (r : Raise) : (s.enterFault r).mem = s.mem := rfl
@[simp] theorem enterFault_runState (r : Raise) : (s.enterFault r).runState = .faulted := rfl
@[simp] theorem enterFault_fault (r : Raise) : (s.enterFault r).fault = ⟨r.cause, s.pc, s.ir, r.info⟩ := rfl
@[simp] theorem enterFault_out (r : Raise) : (s.enterFault r).out = s.out := rfl

/-! Registers through the updates that do not write them. -/

@[simp] theorem setPc_reg (a : Byte) (q : Reg) : (s.setPc a).reg q = s.reg q := rfl
@[simp] theorem setFl_reg (f : BitVec 3) (q : Reg) : (s.setFl f).reg q = s.reg q := rfl
@[simp] theorem emit_reg (v : Byte) (q : Reg) : (s.emit v).reg q = s.reg q := rfl
@[simp] theorem store_reg (a v : Byte) (q : Reg) : (s.store a v).reg q = s.reg q := rfl
@[simp] theorem halt_reg (q : Reg) : (s.halt).reg q = s.reg q := rfl
@[simp] theorem latch_reg (ir : Byte) (ops : List Byte) (q : Reg) : (s.latch ir ops).reg q = s.reg q := rfl
@[simp] theorem enterFault_reg (r : Raise) (q : Reg) : (s.enterFault r).reg q = s.reg q := rfl

/-- `x[r] <- v` then `x[q]` (10_state.md R25). -/
theorem reg_setReg (r q : Reg) (v : Byte) : (s.setReg r v).reg q = if q = r then v else s.reg q := by
  simp only [reg, setReg, Vector.getElem_set, Fin.ext_iff, eq_comm]

@[simp] theorem reg_setReg_same (r : Reg) (v : Byte) : (s.setReg r v).reg r = v := by simp [reg_setReg]

theorem reg_setReg_other (r q : Reg) (v : Byte) (h : q ≠ r) : (s.setReg r v).reg q = s.reg q := by
  simp [reg_setReg, h]

/-- SP is register R7. -/
theorem sp_eq : s.sp = s.reg 7 := rfl

/-- Two register files are equal when every register reads the same. -/
theorem regs_ext {s t : State} (h : ∀ r : Reg, s.reg r = t.reg r) : s.regs = t.regs :=
  Vector.ext fun k hk => h ⟨k, hk⟩

end Sys2Proof.Machine.State
end

