-- ==== Sys2Proof/Laws/Ops.lean ====
section
/-! SUPPORT. One lemma for each shared operation, saying once what it answers. -/

namespace Sys2Proof.Machine

/-! ## Commit (40_cycle.md R105) -/

@[simp] theorem commit_ok (s t : State) : commit s (.ok t) = .next t := rfl
@[simp] theorem commit_error (s : State) (r : Raise) : commit s (.error r) = .next (s.enterFault r) := rfl

/-- Everything commit can answer: the handler's state, or the fault entry. -/
theorem commit_eq_next {s t : State} {h : Result} :
    commit s h = .next t ↔ h = .ok t ∨ ∃ r, h = .error r ∧ t = s.enterFault r := by
  cases h <;> simp [eq_comm]

/-! ## Register operands (40_cycle.md R102) -/

theorem regOperand_of_eq {b : Byte} {r : Reg} (h : b.toNat = r.val) : regOperand b = .ok r := by
  have hb : b.toNat < 8 := h ▸ r.isLt
  simp only [regOperand, hb, ↓reduceDIte]
  exact congrArg _ (Fin.ext h)

theorem regOperand_of_gt {b : Byte} (h : b.toNat > 7) : regOperand b = .error ⟨.registerIndex, b.setWidth 9⟩ := by
  simp [regOperand, show ¬ b.toNat < 8 by omega]

/-- A byte names a register or is above 7. -/
theorem exists_reg_or_gt (b : Byte) : (∃ r : Reg, b.toNat = r.val) ∨ b.toNat > 7 := by
  by_cases h : b.toNat < 8
  · exact .inl ⟨⟨b.toNat, h⟩, rfl⟩
  · exact .inr (by omega)

section Forms

variable {ra rb imm : Byte} {a b : Reg} {s : State}

@[simp] theorem formF0_eq (h : State → Result) : formF0 h s = commit s (h s) := rfl

theorem formF1R_of_eq (ha : ra.toNat = a.val) (h : Reg → State → Result) :
    formF1R ra h s = commit s (h a s) := by simp [formF1R, regOperand_of_eq ha]

theorem formF1R_of_gt (ha : ra.toNat > 7) (h : Reg → State → Result) :
    formF1R ra h s = .next (s.enterFault ⟨.registerIndex, ra.setWidth 9⟩) := by
  simp [formF1R, regOperand_of_gt ha]

theorem formF2RR_of_eq (ha : ra.toNat = a.val) (hb : rb.toNat = b.val) (h : Reg → Reg → State → Result) :
    formF2RR ra rb h s = commit s (h a b s) := by simp [formF2RR, regOperand_of_eq ha, regOperand_of_eq hb]

theorem formF2RR_of_gt (ha : ra.toNat > 7) (h : Reg → Reg → State → Result) :
    formF2RR ra rb h s = .next (s.enterFault ⟨.registerIndex, ra.setWidth 9⟩) := by
  simp [formF2RR, regOperand_of_gt ha]

theorem formF2RR_of_eq_gt (ha : ra.toNat = a.val) (hb : rb.toNat > 7) (h : Reg → Reg → State → Result) :
    formF2RR ra rb h s = .next (s.enterFault ⟨.registerIndex, rb.setWidth 9⟩) := by
  simp [formF2RR, regOperand_of_eq ha, regOperand_of_gt hb]

theorem formF2RI_of_eq (ha : ra.toNat = a.val) (h : Reg → Byte → State → Result) :
    formF2RI ra imm h s = commit s (h a imm s) := by simp [formF2RI, regOperand_of_eq ha]

theorem formF2RI_of_gt (ha : ra.toNat > 7) (h : Reg → Byte → State → Result) :
    formF2RI ra imm h s = .next (s.enterFault ⟨.registerIndex, ra.setWidth 9⟩) := by
  simp [formF2RI, regOperand_of_gt ha]

/-! Inversion: a form answers its handler's completed state, or a fault entry from the state before. -/

theorem commit_inv {h : Result} {t : State} (e : commit s h = .next t) : h = .ok t ∨ ∃ r, t = s.enterFault r := by
  obtain e | ⟨r, -, e⟩ := commit_eq_next.mp e
  · exact .inl e
  · exact .inr ⟨r, e⟩

theorem formF1R_inv {h : Reg → State → Result} {t : State} (e : formF1R ra h s = .next t) :
    (∃ a : Reg, ra.toNat = a.val ∧ h a s = .ok t) ∨ ∃ r, t = s.enterFault r := by
  obtain ⟨a, ha⟩ | ha := exists_reg_or_gt ra
  · exact (commit_inv (formF1R_of_eq ha h ▸ e)).imp_left fun e => ⟨a, ha, e⟩
  · exact .inr ⟨_, (Host.Outcome.next.inj (formF1R_of_gt ha h ▸ e)).symm⟩

theorem formF2RI_inv {h : Reg → Byte → State → Result} {t : State} (e : formF2RI ra imm h s = .next t) :
    (∃ a : Reg, ra.toNat = a.val ∧ h a imm s = .ok t) ∨ ∃ r, t = s.enterFault r := by
  obtain ⟨a, ha⟩ | ha := exists_reg_or_gt ra
  · exact (commit_inv (formF2RI_of_eq ha h ▸ e)).imp_left fun e => ⟨a, ha, e⟩
  · exact .inr ⟨_, (Host.Outcome.next.inj (formF2RI_of_gt ha h ▸ e)).symm⟩

theorem formF2RR_inv {h : Reg → Reg → State → Result} {t : State} (e : formF2RR ra rb h s = .next t) :
    (∃ a b : Reg, ra.toNat = a.val ∧ rb.toNat = b.val ∧ h a b s = .ok t) ∨ ∃ r, t = s.enterFault r := by
  obtain ⟨a, ha⟩ | ha := exists_reg_or_gt ra
  · obtain ⟨b, hb⟩ | hb := exists_reg_or_gt rb
    · exact (commit_inv (formF2RR_of_eq ha hb h ▸ e)).imp_left fun e => ⟨a, b, ha, hb, e⟩
    · exact .inr ⟨_, (Host.Outcome.next.inj (formF2RR_of_eq_gt ha hb h ▸ e)).symm⟩
  · exact .inr ⟨_, (Host.Outcome.next.inj (formF2RR_of_gt ha h ▸ e)).symm⟩

end Forms

/-! ## The program counter (40_cycle.md R104) -/

theorem pcOrRange_of_le {n : Nat} (h : n ≤ 255) : pcOrRange n = .ok (BitVec.ofNat 8 n) := by
  simp [pcOrRange, show ¬ n > 255 by omega]

theorem pcOrRange_of_gt {n : Nat} (h : n > 255) : pcOrRange n = .error ⟨.pcRange, BitVec.ofNat 9 n⟩ := by
  simp [pcOrRange, h]

theorem advance_of_le {n : Nat} {s : State} (h : s.pc.toNat + n + 1 ≤ 255) :
    advance n s = .ok (s.setPc (s.pc + BitVec.ofNat 8 (n + 1))) := by
  simp only [advance, pcOrRange_of_le h]
  congr 2
  apply BitVec.eq_of_toNat_eq
  simp only [BitVec.toNat_add, BitVec.toNat_ofNat]
  omega

theorem advance_of_gt {n : Nat} {s : State} (h : s.pc.toNat + n + 1 > 255) :
    advance n s = .error ⟨.pcRange, BitVec.ofNat 9 (s.pc.toNat + n + 1)⟩ := by
  simp [advance, pcOrRange_of_gt h]

/-- Everything the advance can answer. -/
theorem advance_cases (n : Nat) (s : State) :
    (∃ a : Byte, a.toNat = s.pc.toNat + n + 1 ∧ advance n s = .ok (s.setPc a)) ∨
    (s.pc.toNat + n + 1 > 255 ∧ advance n s = .error ⟨.pcRange, BitVec.ofNat 9 (s.pc.toNat + n + 1)⟩) := by
  by_cases h : s.pc.toNat + n + 1 > 255
  · exact .inr ⟨h, advance_of_gt h⟩
  · refine .inl ⟨_, ?_, advance_of_le (by omega)⟩
    simp only [BitVec.toNat_add, BitVec.toNat_ofNat]
    omega

@[simp] theorem thenAdvance_ok (n : Nat) (s : State) : thenAdvance n (.ok s) = advance n s := rfl
@[simp] theorem thenAdvance_error (n : Nat) (r : Raise) : thenAdvance n (.error r) = .error r := rfl

/-- An advance that completes sets the PC to the number it stands for. -/
theorem advance_inv {n : Nat} {s t : State} (e : advance n s = .ok t) :
    ∃ a : Byte, a.toNat = s.pc.toNat + n + 1 ∧ t = s.setPc a := by
  obtain ⟨a, ha, h⟩ | ⟨-, h⟩ := advance_cases n s
  · exact ⟨a, ha, (Except.ok.inj (h ▸ e)).symm⟩
  · exact absurd (h ▸ e) (by simp)

theorem thenAdvance_inv {n : Nat} {h : Result} {t : State} (e : thenAdvance n h = .ok t) :
    ∃ u, ∃ a : Byte, h = .ok u ∧ a.toNat = u.pc.toNat + n + 1 ∧ t = u.setPc a := by
  cases h with
  | error r => exact absurd e (by simp)
  | ok u => exact (advance_inv e).elim fun a h => ⟨u, a, rfl, h⟩

/-! ## The stack primitives (41_register_stack.md R116, R117) -/

theorem push_of_zero {i : Reg} {s : State} (h : s.reg 7 = 0) : push i s = .error ⟨.stackPushRange, 0⟩ := by
  simp [push, State.sp_eq, h]

/-- A push that does not fault: SP goes down by one and the cell there takes the register, read after that. -/
theorem push_of_ne {i : Reg} {s : State} (h : s.reg 7 ≠ 0) :
    push i s = .ok ((s.setReg 7 (s.reg 7 - 1)).store (s.reg 7 - 1) (if i = 7 then s.reg 7 - 1 else s.reg i)) := by
  have hs : ¬ s.sp = 0 := h
  rw [push, if_neg hs]
  simp [State.sp_eq, State.reg_setReg]

theorem pop_of_other {i : Reg} {s : State} (hi : i ≠ 7) :
    pop i s = if s.reg 7 = 255 then .error ⟨.stackPopRange, 255⟩
      else .ok ((s.setReg i (s.load (s.reg 7))).setReg 7 (s.reg 7 + 1)) := by
  simp [pop, State.sp_eq, State.reg_setReg, Ne.symm hi]

theorem pop_of_sp {s : State} :
    pop 7 s = if s.load (s.reg 7) = 255 then .error ⟨.stackPopRange, 255⟩
      else .ok ((s.setReg 7 (s.load (s.reg 7))).setReg 7 (s.load (s.reg 7) + 1)) := by
  simp [pop, State.sp_eq]

theorem push_inv {i : Reg} {s t : State} (e : push i s = .ok t) :
    s.reg 7 ≠ 0 ∧
      t = (s.setReg 7 (s.reg 7 - 1)).store (s.reg 7 - 1) (if i = 7 then s.reg 7 - 1 else s.reg i) := by
  by_cases h : s.reg 7 = 0
  · exact absurd (push_of_zero h ▸ e) (by simp)
  · exact ⟨h, (Except.ok.inj (push_of_ne h ▸ e)).symm⟩

/-- A pop that completes: `v` is the value it increments, the popped byte when the register is SP itself. -/
theorem pop_inv {i : Reg} {s t : State} (e : pop i s = .ok t) :
    ∃ v, v ≠ 255 ∧ v = (if i = 7 then s.load (s.reg 7) else s.reg 7) ∧
      t = (s.setReg i (s.load (s.reg 7))).setReg 7 (v + 1) := by
  by_cases h : i = 7
  · subst h
    rw [pop_of_sp] at e
    split at e
    · exact absurd e (by simp)
    · exact ⟨_, ‹_›, rfl, (Except.ok.inj e).symm⟩
  · rw [pop_of_other h] at e
    split at e
    · exact absurd e (by simp)
    · exact ⟨_, ‹_›, (if_neg h).symm, (Except.ok.inj e).symm⟩

end Sys2Proof.Machine
end

