-- ==== Sys2Proof/Laws/Control.lean ====
section
/-! SUPPORT. What the control-flow handlers answer when they complete (43_control_flow.md). -/

namespace Sys2Proof.Machine

theorem branch_inv {taken : Bool} {a : Reg} {s t : State} (e : branch taken a s = .ok t) :
    (taken = true ∧ t = s.setPc (s.reg a)) ∨
    (taken = false ∧ ∃ p : Byte, p.toNat = s.pc.toNat + 2 ∧ t = s.setPc p) := by
  cases taken with
  | true => exact .inl ⟨rfl, (Except.ok.inj e).symm⟩
  | false => exact .inr ⟨rfl, advance_inv e⟩

/-- A CALL that completes, with the target as the spec's order of reads gives it (43_control_flow.md R161). -/
theorem call_inv {a : Reg} {s t : State} (e : call a s = .ok t) :
    s.pc.toNat ≤ 253 ∧ s.reg 7 ≠ 0 ∧
      t = (((s.setReg 6 (s.pc + 2)).setReg 7 (s.reg 7 - 1)).store (s.reg 7 - 1) (s.pc + 2)).setPc
        (if a = 6 then s.pc + 2 else if a = 7 then s.reg 7 - 1 else s.reg a) := by
  rw [call] at e
  by_cases h : s.pc.toNat + 2 > 255
  · rw [pcOrRange_of_gt h] at e
    exact absurd e (by simp)
  rw [pcOrRange_of_le (by omega)] at e
  simp only at e
  split at e
  · exact absurd e (by simp)
  rename_i u hu
  obtain ⟨hz, hu⟩ := push_inv hu
  have hpc : BitVec.ofNat 8 (s.pc.toNat + 2) = s.pc + 2 := by
    apply BitVec.eq_of_toNat_eq
    simp
  refine ⟨by omega, by simpa [State.reg_setReg, linkReg] using hz, ?_⟩
  rw [← Except.ok.inj e, hu]
  simp only [State.reg_setReg, linkReg, hpc, State.store_reg]
  by_cases h6 : a = 6
  · subst h6
    rfl
  · by_cases h7 : a = 7
    · subst h7
      rfl
    · simp [h6, h7]

/-- A RET that completes (43_control_flow.md R162). -/
theorem ret_inv {s t : State} (e : ret s = .ok t) :
    s.reg 7 ≠ 255 ∧ t = ((s.setReg 6 (s.load (s.reg 7))).setReg 7 (s.reg 7 + 1)).setPc (s.load (s.reg 7)) := by
  rw [ret] at e
  split at e
  · exact absurd e (by simp)
  rename_i u hu
  obtain ⟨v, hv, rfl, rfl⟩ := pop_inv hu
  exact ⟨hv, by rw [← Except.ok.inj e]; simp [State.reg_setReg, linkReg]⟩

end Sys2Proof.Machine
end

