-- ==== Sys2Proof/Laws/Exec.lean ====
section
/-! SUPPORT. What an instruction can do, said once: `exec` answers one of the completed effects of `Effect`, or a
fault entry from the state before. -/

namespace Sys2Proof.Machine

/-- The completed effect of each instruction on `s`. `p` is the PC after the sequential advance. -/
inductive Effect (s : State) : Instr → State → Prop
  | hlt : Effect s .hlt s.halt
  | ldi {ra imm p : Byte} {a : Reg} : ra.toNat = a.val → p.toNat = s.pc.toNat + 3 →
      Effect s (.ldi ra imm) ((s.setReg a imm).setPc p)
  | prn {ra p : Byte} {a : Reg} : ra.toNat = a.val → p.toNat = s.pc.toNat + 2 →
      Effect s (.prn ra) ((s.emit (s.reg a)).setPc p)
  | push {ra p : Byte} {a : Reg} : ra.toNat = a.val → s.reg 7 ≠ 0 → p.toNat = s.pc.toNat + 2 →
      Effect s (.push ra) (((s.setReg 7 (s.reg 7 - 1)).store (s.reg 7 - 1)
        (if a = 7 then s.reg 7 - 1 else s.reg a)).setPc p)
  | pop {ra p v : Byte} {a : Reg} : ra.toNat = a.val → v ≠ 255 → v = (if a = 7 then s.load (s.reg 7) else s.reg 7) →
      p.toNat = s.pc.toNat + 2 →
      Effect s (.pop ra) (((s.setReg a (s.load (s.reg 7))).setReg 7 (v + 1)).setPc p)
  | add {ra rb p : Byte} {a b : Reg} : ra.toNat = a.val → rb.toNat = b.val → p.toNat = s.pc.toNat + 3 →
      Effect s (.add ra rb) ((s.setReg a (aluAdd (s.reg a) (s.reg b))).setPc p)
  | sub {ra rb p : Byte} {a b : Reg} : ra.toNat = a.val → rb.toNat = b.val → p.toNat = s.pc.toNat + 3 →
      Effect s (.sub ra rb) ((s.setReg a (aluSub (s.reg a) (s.reg b))).setPc p)
  | mul {ra rb p : Byte} {a b : Reg} : ra.toNat = a.val → rb.toNat = b.val → p.toNat = s.pc.toNat + 3 →
      Effect s (.mul ra rb) ((s.setReg a (aluMul (s.reg a) (s.reg b))).setPc p)
  | and {ra rb p : Byte} {a b : Reg} : ra.toNat = a.val → rb.toNat = b.val → p.toNat = s.pc.toNat + 3 →
      Effect s (.and ra rb) ((s.setReg a (aluAnd (s.reg a) (s.reg b))).setPc p)
  | or {ra rb p : Byte} {a b : Reg} : ra.toNat = a.val → rb.toNat = b.val → p.toNat = s.pc.toNat + 3 →
      Effect s (.or ra rb) ((s.setReg a (aluOr (s.reg a) (s.reg b))).setPc p)
  | xor {ra rb p : Byte} {a b : Reg} : ra.toNat = a.val → rb.toNat = b.val → p.toNat = s.pc.toNat + 3 →
      Effect s (.xor ra rb) ((s.setReg a (aluXor (s.reg a) (s.reg b))).setPc p)
  | shl {ra rb p : Byte} {a b : Reg} : ra.toNat = a.val → rb.toNat = b.val → p.toNat = s.pc.toNat + 3 →
      Effect s (.shl ra rb) ((s.setReg a (aluShl (s.reg a) (s.reg b))).setPc p)
  | shr {ra rb p : Byte} {a b : Reg} : ra.toNat = a.val → rb.toNat = b.val → p.toNat = s.pc.toNat + 3 →
      Effect s (.shr ra rb) ((s.setReg a (aluShr (s.reg a) (s.reg b))).setPc p)
  | div {ra rb p : Byte} {a b : Reg} : ra.toNat = a.val → rb.toNat = b.val → s.reg b ≠ 0 →
      p.toNat = s.pc.toNat + 3 →
      Effect s (.div ra rb) ((s.setReg a (aluDiv (s.reg a) (s.reg b))).setPc p)
  | mod {ra rb p : Byte} {a b : Reg} : ra.toNat = a.val → rb.toNat = b.val → s.reg b ≠ 0 →
      p.toNat = s.pc.toNat + 3 →
      Effect s (.mod ra rb) ((s.setReg a (aluMod (s.reg a) (s.reg b))).setPc p)
  | not {ra p : Byte} {a : Reg} : ra.toNat = a.val → p.toNat = s.pc.toNat + 2 →
      Effect s (.not ra) ((s.setReg a (aluNot (s.reg a))).setPc p)
  | cmp {ra rb p : Byte} {a b : Reg} : ra.toNat = a.val → rb.toNat = b.val → p.toNat = s.pc.toNat + 3 →
      Effect s (.cmp ra rb) ((s.setFl (cmpFlags (s.reg a) (s.reg b))).setPc p)
  | call {ra : Byte} {a : Reg} : ra.toNat = a.val → s.pc.toNat ≤ 253 → s.reg 7 ≠ 0 →
      Effect s (.call ra) ((((s.setReg 6 (s.pc + 2)).setReg 7 (s.reg 7 - 1)).store (s.reg 7 - 1) (s.pc + 2)).setPc
        (if a = 6 then s.pc + 2 else if a = 7 then s.reg 7 - 1 else s.reg a))
  | ret : s.reg 7 ≠ 255 →
      Effect s .ret (((s.setReg 6 (s.load (s.reg 7))).setReg 7 (s.reg 7 + 1)).setPc (s.load (s.reg 7)))
  | jmp {ra : Byte} {a : Reg} : ra.toNat = a.val → Effect s (.jmp ra) (s.setPc (s.reg a))
  | jeqTaken {ra : Byte} {a : Reg} : ra.toNat = a.val → s.flE = true → Effect s (.jeq ra) (s.setPc (s.reg a))
  | jeqPast {ra p : Byte} {a : Reg} : ra.toNat = a.val → s.flE = false → p.toNat = s.pc.toNat + 2 →
      Effect s (.jeq ra) (s.setPc p)
  | jneTaken {ra : Byte} {a : Reg} : ra.toNat = a.val → s.flE = false → Effect s (.jne ra) (s.setPc (s.reg a))
  | jnePast {ra p : Byte} {a : Reg} : ra.toNat = a.val → s.flE = true → p.toNat = s.pc.toNat + 2 →
      Effect s (.jne ra) (s.setPc p)

theorem aluWrite_inv {f : Byte → Byte → Byte} {a b : Reg} {s t : State} (e : aluWrite f a b s = .ok t) :
    ∃ p : Byte, p.toNat = s.pc.toNat + 3 ∧ t = (s.setReg a (f (s.reg a) (s.reg b))).setPc p :=
  advance_inv e

theorem aluDivide_inv {f : Byte → Byte → Byte} {a b : Reg} {s t : State} (e : aluDivide f a b s = .ok t) :
    s.reg b ≠ 0 ∧ ∃ p : Byte, p.toNat = s.pc.toNat + 3 ∧ t = (s.setReg a (f (s.reg a) (s.reg b))).setPc p := by
  rw [aluDivide] at e
  split at e
  · exact absurd e (by simp)
  · exact ⟨‹_›, aluWrite_inv e⟩

/-- Everything `exec` can answer with a next state. -/
theorem exec_inv {i : Instr} {s t : State} (e : exec i s = .next t) : Effect s i t ∨ ∃ r, t = s.enterFault r := by
  cases i with
  | hlt => exact .inl (Host.Outcome.next.inj e ▸ .hlt)
  | ldi ra imm =>
    rw [exec, execLdi] at e
    refine (formF2RI_inv e).imp_left ?_
    rintro ⟨a, ha, e⟩
    obtain ⟨p, hp, rfl⟩ := advance_inv e
    exact .ldi ha hp
  | prn ra =>
    rw [exec, execPrn] at e
    refine (formF1R_inv e).imp_left ?_
    rintro ⟨a, ha, e⟩
    obtain ⟨p, hp, rfl⟩ := advance_inv e
    exact .prn ha hp
  | push ra =>
    rw [exec, execPush] at e
    refine (formF1R_inv e).imp_left ?_
    rintro ⟨a, ha, e⟩
    obtain ⟨u, p, hu, hp, rfl⟩ := thenAdvance_inv e
    obtain ⟨hz, rfl⟩ := push_inv hu
    exact .push ha hz hp
  | pop ra =>
    rw [exec, execPop] at e
    refine (formF1R_inv e).imp_left ?_
    rintro ⟨a, ha, e⟩
    obtain ⟨u, p, hu, hp, rfl⟩ := thenAdvance_inv e
    obtain ⟨v, hv, hv', rfl⟩ := pop_inv hu
    exact .pop ha hv hv' hp
  | add ra rb =>
    refine (formF2RR_inv (show formF2RR ra rb _ s = _ from e)).imp_left ?_
    rintro ⟨a, b, ha, hb, e⟩
    obtain ⟨p, hp, rfl⟩ := aluWrite_inv e
    exact .add ha hb hp
  | sub ra rb =>
    refine (formF2RR_inv (show formF2RR ra rb _ s = _ from e)).imp_left ?_
    rintro ⟨a, b, ha, hb, e⟩
    obtain ⟨p, hp, rfl⟩ := aluWrite_inv e
    exact .sub ha hb hp
  | mul ra rb =>
    refine (formF2RR_inv (show formF2RR ra rb _ s = _ from e)).imp_left ?_
    rintro ⟨a, b, ha, hb, e⟩
    obtain ⟨p, hp, rfl⟩ := aluWrite_inv e
    exact .mul ha hb hp
  | and ra rb =>
    refine (formF2RR_inv (show formF2RR ra rb _ s = _ from e)).imp_left ?_
    rintro ⟨a, b, ha, hb, e⟩
    obtain ⟨p, hp, rfl⟩ := aluWrite_inv e
    exact .and ha hb hp
  | or ra rb =>
    refine (formF2RR_inv (show formF2RR ra rb _ s = _ from e)).imp_left ?_
    rintro ⟨a, b, ha, hb, e⟩
    obtain ⟨p, hp, rfl⟩ := aluWrite_inv e
    exact .or ha hb hp
  | xor ra rb =>
    refine (formF2RR_inv (show formF2RR ra rb _ s = _ from e)).imp_left ?_
    rintro ⟨a, b, ha, hb, e⟩
    obtain ⟨p, hp, rfl⟩ := aluWrite_inv e
    exact .xor ha hb hp
  | shl ra rb =>
    refine (formF2RR_inv (show formF2RR ra rb _ s = _ from e)).imp_left ?_
    rintro ⟨a, b, ha, hb, e⟩
    obtain ⟨p, hp, rfl⟩ := aluWrite_inv e
    exact .shl ha hb hp
  | shr ra rb =>
    refine (formF2RR_inv (show formF2RR ra rb _ s = _ from e)).imp_left ?_
    rintro ⟨a, b, ha, hb, e⟩
    obtain ⟨p, hp, rfl⟩ := aluWrite_inv e
    exact .shr ha hb hp
  | div ra rb =>
    refine (formF2RR_inv (show formF2RR ra rb _ s = _ from e)).imp_left ?_
    rintro ⟨a, b, ha, hb, e⟩
    obtain ⟨hz, p, hp, rfl⟩ := aluDivide_inv e
    exact .div ha hb hz hp
  | mod ra rb =>
    refine (formF2RR_inv (show formF2RR ra rb _ s = _ from e)).imp_left ?_
    rintro ⟨a, b, ha, hb, e⟩
    obtain ⟨hz, p, hp, rfl⟩ := aluDivide_inv e
    exact .mod ha hb hz hp
  | not ra =>
    rw [exec, execNot] at e
    refine (formF1R_inv e).imp_left ?_
    rintro ⟨a, ha, e⟩
    obtain ⟨p, hp, rfl⟩ := advance_inv e
    exact .not ha hp
  | cmp ra rb =>
    rw [exec, execCmp] at e
    refine (formF2RR_inv e).imp_left ?_
    rintro ⟨a, b, ha, hb, e⟩
    obtain ⟨p, hp, rfl⟩ := advance_inv e
    exact .cmp ha hb hp
  | call ra =>
    refine (formF1R_inv (show formF1R ra _ s = _ from e)).imp_left ?_
    rintro ⟨a, ha, e⟩
    obtain ⟨hp, hz, rfl⟩ := call_inv e
    exact .call ha hp hz
  | ret =>
    refine (commit_inv (show commit s (ret s) = _ from e)).imp_left fun e => ?_
    obtain ⟨hz, rfl⟩ := ret_inv e
    exact .ret hz
  | jmp ra =>
    rw [exec, execJmp] at e
    refine (formF1R_inv e).imp_left ?_
    rintro ⟨a, ha, e⟩
    exact Except.ok.inj e ▸ .jmp ha
  | jeq ra =>
    rw [exec, execJeq] at e
    refine (formF1R_inv e).imp_left ?_
    rintro ⟨a, ha, e⟩
    obtain ⟨hf, rfl⟩ | ⟨hf, p, hp, rfl⟩ := branch_inv e
    · exact .jeqTaken ha hf
    · exact .jeqPast ha hf hp
  | jne ra =>
    rw [exec, execJne] at e
    refine (formF1R_inv e).imp_left ?_
    rintro ⟨a, ha, e⟩
    obtain ⟨hf, rfl⟩ | ⟨hf, p, hp, rfl⟩ := branch_inv e
    · exact .jneTaken ha (by simpa using hf)
    · exact .jnePast ha (by simpa using hf) hp

/-! `exec` never answers a model fault or a refusal: every instruction has a next state in every state. -/

theorem commit_next (s : State) (h : Result) : ∃ t, commit s h = .next t := by
  cases h <;> exact ⟨_, rfl⟩

theorem formF1R_next (ra : Byte) (h : Reg → State → Result) (s : State) : ∃ t, formF1R ra h s = .next t := by
  rw [formF1R]
  split <;> exact commit_next _ _

theorem formF2RI_next (ra imm : Byte) (h : Reg → Byte → State → Result) (s : State) :
    ∃ t, formF2RI ra imm h s = .next t := by
  rw [formF2RI]
  split <;> exact commit_next _ _

theorem formF2RR_next (ra rb : Byte) (h : Reg → Reg → State → Result) (s : State) :
    ∃ t, formF2RR ra rb h s = .next t := by
  rw [formF2RR]
  split
  · exact commit_next _ _
  · split <;> exact commit_next _ _

theorem exec_next (i : Instr) (s : State) : ∃ t, exec i s = .next t := by
  cases i with
  | hlt => exact ⟨_, rfl⟩
  | ret => exact commit_next s (ret s)
  | ldi ra imm =>
    rw [exec, execLdi]
    exact formF2RI_next ra imm _ s
  | add ra rb => exact formF2RR_next ra rb _ s
  | sub ra rb => exact formF2RR_next ra rb _ s
  | mul ra rb => exact formF2RR_next ra rb _ s
  | div ra rb => exact formF2RR_next ra rb _ s
  | mod ra rb => exact formF2RR_next ra rb _ s
  | and ra rb => exact formF2RR_next ra rb _ s
  | or ra rb => exact formF2RR_next ra rb _ s
  | xor ra rb => exact formF2RR_next ra rb _ s
  | shl ra rb => exact formF2RR_next ra rb _ s
  | shr ra rb => exact formF2RR_next ra rb _ s
  | cmp ra rb =>
    rw [exec, execCmp]
    exact formF2RR_next ra rb _ s
  | prn ra =>
    rw [exec, execPrn]
    exact formF1R_next ra _ s
  | push ra =>
    rw [exec, execPush]
    exact formF1R_next ra _ s
  | pop ra =>
    rw [exec, execPop]
    exact formF1R_next ra _ s
  | not ra =>
    rw [exec, execNot]
    exact formF1R_next ra _ s
  | call ra => exact formF1R_next ra _ s
  | jmp ra =>
    rw [exec, execJmp]
    exact formF1R_next ra _ s
  | jeq ra =>
    rw [exec, execJeq]
    exact formF1R_next ra _ s
  | jne ra =>
    rw [exec, execJne]
    exact formF1R_next ra _ s

end Sys2Proof.Machine
end

