-- ==== Sys2Proof/Laws/PerInstr.lean ====
section
/-! SUPPORT. Facts about each instruction as syntax, one lemma a constructor (30_encoding.md R77). -/

namespace Sys2Proof.Laws.OpcodeFields

/-- The opcode byte's n field counts the operand bytes, the byte decodes to the opcode, and the opcode with the
operand bytes assembles to the instruction. -/
def Statement (i : Instr) : Prop :=
  operandCount (opcodeByte (instrOpcode i)) = (instrOperands i).length ∧
  decodeOpcode (opcodeByte (instrOpcode i)) = some (instrOpcode i) ∧
  assemble (instrOpcode i) ((instrOperands i).getD 0 0) ((instrOperands i).getD 1 0) = i

theorem hlt : Statement .hlt :=
  ⟨(by decide : operandCount (opcodeByte .hlt) = 0),
   (by decide : decodeOpcode (opcodeByte .hlt) = some .hlt), rfl⟩
theorem ldi (ra imm : Byte) : Statement (.ldi ra imm) :=
  ⟨(by decide : operandCount (opcodeByte .ldi) = 2),
   (by decide : decodeOpcode (opcodeByte .ldi) = some .ldi), rfl⟩
theorem prn (ra : Byte) : Statement (.prn ra) :=
  ⟨(by decide : operandCount (opcodeByte .prn) = 1),
   (by decide : decodeOpcode (opcodeByte .prn) = some .prn), rfl⟩
theorem push (ra : Byte) : Statement (.push ra) :=
  ⟨(by decide : operandCount (opcodeByte .push) = 1),
   (by decide : decodeOpcode (opcodeByte .push) = some .push), rfl⟩
theorem pop (ra : Byte) : Statement (.pop ra) :=
  ⟨(by decide : operandCount (opcodeByte .pop) = 1),
   (by decide : decodeOpcode (opcodeByte .pop) = some .pop), rfl⟩
theorem add (ra rb : Byte) : Statement (.add ra rb) :=
  ⟨(by decide : operandCount (opcodeByte .add) = 2),
   (by decide : decodeOpcode (opcodeByte .add) = some .add), rfl⟩
theorem sub (ra rb : Byte) : Statement (.sub ra rb) :=
  ⟨(by decide : operandCount (opcodeByte .sub) = 2),
   (by decide : decodeOpcode (opcodeByte .sub) = some .sub), rfl⟩
theorem mul (ra rb : Byte) : Statement (.mul ra rb) :=
  ⟨(by decide : operandCount (opcodeByte .mul) = 2),
   (by decide : decodeOpcode (opcodeByte .mul) = some .mul), rfl⟩
theorem div (ra rb : Byte) : Statement (.div ra rb) :=
  ⟨(by decide : operandCount (opcodeByte .div) = 2),
   (by decide : decodeOpcode (opcodeByte .div) = some .div), rfl⟩
theorem mod (ra rb : Byte) : Statement (.mod ra rb) :=
  ⟨(by decide : operandCount (opcodeByte .mod) = 2),
   (by decide : decodeOpcode (opcodeByte .mod) = some .mod), rfl⟩
theorem and (ra rb : Byte) : Statement (.and ra rb) :=
  ⟨(by decide : operandCount (opcodeByte .and) = 2),
   (by decide : decodeOpcode (opcodeByte .and) = some .and), rfl⟩
theorem or (ra rb : Byte) : Statement (.or ra rb) :=
  ⟨(by decide : operandCount (opcodeByte .or) = 2),
   (by decide : decodeOpcode (opcodeByte .or) = some .or), rfl⟩
theorem xor (ra rb : Byte) : Statement (.xor ra rb) :=
  ⟨(by decide : operandCount (opcodeByte .xor) = 2),
   (by decide : decodeOpcode (opcodeByte .xor) = some .xor), rfl⟩
theorem not (ra : Byte) : Statement (.not ra) :=
  ⟨(by decide : operandCount (opcodeByte .not) = 1),
   (by decide : decodeOpcode (opcodeByte .not) = some .not), rfl⟩
theorem shl (ra rb : Byte) : Statement (.shl ra rb) :=
  ⟨(by decide : operandCount (opcodeByte .shl) = 2),
   (by decide : decodeOpcode (opcodeByte .shl) = some .shl), rfl⟩
theorem shr (ra rb : Byte) : Statement (.shr ra rb) :=
  ⟨(by decide : operandCount (opcodeByte .shr) = 2),
   (by decide : decodeOpcode (opcodeByte .shr) = some .shr), rfl⟩
theorem cmp (ra rb : Byte) : Statement (.cmp ra rb) :=
  ⟨(by decide : operandCount (opcodeByte .cmp) = 2),
   (by decide : decodeOpcode (opcodeByte .cmp) = some .cmp), rfl⟩
theorem call (ra : Byte) : Statement (.call ra) :=
  ⟨(by decide : operandCount (opcodeByte .call) = 1),
   (by decide : decodeOpcode (opcodeByte .call) = some .call), rfl⟩
theorem ret : Statement .ret :=
  ⟨(by decide : operandCount (opcodeByte .ret) = 0),
   (by decide : decodeOpcode (opcodeByte .ret) = some .ret), rfl⟩
theorem jmp (ra : Byte) : Statement (.jmp ra) :=
  ⟨(by decide : operandCount (opcodeByte .jmp) = 1),
   (by decide : decodeOpcode (opcodeByte .jmp) = some .jmp), rfl⟩
theorem jeq (ra : Byte) : Statement (.jeq ra) :=
  ⟨(by decide : operandCount (opcodeByte .jeq) = 1),
   (by decide : decodeOpcode (opcodeByte .jeq) = some .jeq), rfl⟩
theorem jne (ra : Byte) : Statement (.jne ra) :=
  ⟨(by decide : operandCount (opcodeByte .jne) = 1),
   (by decide : decodeOpcode (opcodeByte .jne) = some .jne), rfl⟩

end Sys2Proof.Laws.OpcodeFields
end

