-- ==== Sys2Proof/Laws/Step.lean ====
section
/-! SUPPORT. What fetch and the step do, by the opcode at the PC. -/

namespace Sys2Proof.Machine

@[simp] theorem fetch_regs (s : State) : s.fetch.regs = s.regs := rfl
@[simp] theorem fetch_reg (s : State) (r : Reg) : s.fetch.reg r = s.reg r := rfl
@[simp] theorem fetch_pc (s : State) : s.fetch.pc = s.pc := rfl
@[simp] theorem fetch_fl (s : State) : s.fetch.fl = s.fl := rfl
@[simp] theorem fetch_mem (s : State) : s.fetch.mem = s.mem := rfl
@[simp] theorem fetch_out (s : State) : s.fetch.out = s.out := rfl
@[simp] theorem fetch_runState (s : State) : s.fetch.runState = s.runState := rfl
@[simp] theorem fetch_fault (s : State) : s.fetch.fault = s.fault := rfl
@[simp] theorem fetch_ir (s : State) : s.fetch.ir = s.mem.read s.pc.toNat := rfl

/-- Where `n` cells from `a` on exist, they are all read. -/
theorem cellsFrom_of_le (m : Memory) (n a : Nat) (h : a + n ≤ 256) :
    cellsFrom m n a = (List.range n).map fun k => m.read (a + k) := by
  induction n generalizing a with
  | zero => rfl
  | succ n ih =>
    simp only [cellsFrom, show ¬ a > 255 by omega, ↓reduceIte, ih (a + 1) (by omega),
      List.range_succ_eq_map, List.map_cons, List.map_map, Nat.add_zero]
    congr 2
    funext k
    simp [Nat.add_assoc, Nat.add_comm 1 k]

/-- At most the cells up to 255 are read. -/
theorem length_cellsFrom (m : Memory) (n a : Nat) (h : a ≤ 256) : (cellsFrom m n a).length = min n (256 - a) := by
  induction n generalizing a with
  | zero => simp [cellsFrom]
  | succ n ih =>
    simp only [cellsFrom]
    split
    · simp only [List.length_nil]
      omega
    · simp only [List.length_cons, ih (a + 1) (by omega)]
      omega

/-- Decoding is by the full byte: every opcode is found by its own byte. -/
theorem decodeOpcode_opcodeByte (o : Opcode) : decodeOpcode (opcodeByte o) = some o := by
  cases o <;> decide

/-- A byte that decodes to an opcode is that opcode's byte. -/
theorem eq_opcodeByte_of_decodeOpcode {b : Byte} {o : Opcode} (h : decodeOpcode b = some o) : b = opcodeByte o :=
  have hf : (opcodeByte o == b) = true := List.find?_some (p := fun o => opcodeByte o == b) h
  (beq_iff_eq.mp hf).symm

/-- No opcode has more than two operands. -/
theorem operandCount_opcodeByte_le (o : Opcode) : operandCount (opcodeByte o) ≤ 2 := by
  cases o <;> decide

/-- The n field of an instruction's opcode byte counts its operand bytes (30_encoding.md R77). -/
theorem operandCount_instr (i : Instr) : operandCount (opcodeByte (instrOpcode i)) = (instrOperands i).length := by
  cases i <;> simp only [instrOpcode, instrOperands, List.length_cons, List.length_nil] <;> decide

/-- A step at an illegal byte. -/
theorem step_of_illegal {s : State} (hr : s.runState = .running) (h : decodeOpcode (s.mem.read s.pc.toNat) = none) :
    step s = .next (s.fetch.enterFault ⟨.illegalOpcode, (s.mem.read s.pc.toNat).setWidth 9⟩) := by
  simp [step, hr, runInstruction, decode, State.opcodeAtPc, h, decodeRaise]

/-- A step whose operand bytes run past 255. -/
theorem step_of_short {s : State} {o : Opcode} (hr : s.runState = .running)
    (h : s.mem.read s.pc.toNat = opcodeByte o) (hn : s.pc.toNat + operandCount (opcodeByte o) > 255) :
    step s = .next (s.fetch.enterFault ⟨.operandRange, 256⟩) := by
  have hp := s.pc.isLt
  have hl := length_cellsFrom s.mem (operandCount (opcodeByte o)) (s.pc.toNat + 1) (by omega)
  have hops : s.operandsAtPc = cellsFrom s.mem (operandCount (opcodeByte o)) (s.pc.toNat + 1) := by
    simp [State.operandsAtPc, State.opcodeAtPc, h, decodeOpcode_opcodeByte]
  have hlt : s.operandsAtPc.length < operandCount (opcodeByte o) := by rw [hops, hl]; omega
  have hlen : s.pc.toNat + (s.operandsAtPc.length + 1) = 256 := by rw [hops, hl]; omega
  have hd : decode s.opcodeAtPc s.operandsAtPc = .error (.missingByte (s.operandsAtPc.length + 1)) := by
    simp only [decode, State.opcodeAtPc, h, decodeOpcode_opcodeByte, hlt, ↓reduceIte]
  simp only [step, hr, runInstruction, hd, decodeRaise, hlen, commit_error]
  rfl

/-- A step at a legal opcode with all its operand bytes runs the instruction they make. -/
theorem step_of_opcode {s : State} {o : Opcode} (hr : s.runState = .running)
    (h : s.mem.read s.pc.toNat = opcodeByte o) (hn : s.pc.toNat + operandCount (opcodeByte o) ≤ 255) :
    step s = exec (assemble o (s.mem.read (s.pc.toNat + 1)) (s.mem.read (s.pc.toNat + 2))) s.fetch := by
  have hops : s.operandsAtPc = (List.range (operandCount (opcodeByte o))).map fun k => s.mem.read (s.pc.toNat + 1 + k) := by
    rw [← cellsFrom_of_le _ _ _ (by omega)]
    simp [State.operandsAtPc, State.opcodeAtPc, h, decodeOpcode_opcodeByte]
  have hlt : ¬ s.operandsAtPc.length < operandCount (opcodeByte o) := by simp [hops]
  simp only [step, hr, runInstruction, decode, State.opcodeAtPc, h, decodeOpcode_opcodeByte, hlt, ↓reduceIte]
  rw [hops]
  cases o <;> rfl

end Sys2Proof.Machine
end

