-- ==== Sys2Proof/Laws/Related.lean ====
section
/-! SUPPORT. Two runs side by side: what an instruction does to states that agree on what it reads. -/

namespace Sys2Proof.Machine

/-- A relation between states that agree on registers and PC, which the updates of the handlers keep. -/
structure Kept (R : State → State → Prop) : Prop where
  reg : ∀ {s u}, R s u → ∀ r, s.reg r = u.reg r
  pc : ∀ {s u}, R s u → s.pc = u.pc
  setReg : ∀ {s u}, R s u → ∀ r v, R (s.setReg r v) (u.setReg r v)
  setPc : ∀ {s u}, R s u → ∀ a, R (s.setPc a) (u.setPc a)
  setFl : ∀ {s u}, R s u → ∀ f, R (s.setFl f) (u.setFl f)
  emit : ∀ {s u}, R s u → ∀ v, R (s.emit v) (u.emit v)
  store : ∀ {s u}, R s u → ∀ a v, R (s.store a v) (u.store a v)
  halt : ∀ {s u}, R s u → R s.halt u.halt
  enterFault : ∀ {s u}, R s u → ∀ r, R (s.enterFault r) (u.enterFault r)

/-- Two handler results that raise the same, or complete in related states. -/
inductive SameResult (R : State → State → Prop) : Result → Result → Prop
  | ok {s u : State} : R s u → SameResult R (.ok s) (.ok u)
  | error (r : Raise) : SameResult R (.error r) (.error r)

/-- Two outcomes that are next states, related. -/
def BothNext (R : State → State → Prop) (x y : Host.Outcome State Fault Refusal) : Prop :=
  ∃ t u, x = .next t ∧ y = .next u ∧ R t u

section

variable {R : State → State → Prop} (k : Kept R) {s u : State} (h : R s u)
include k h

theorem commit_same {x y : Result} (e : SameResult R x y) : BothNext R (commit s x) (commit u y) := by
  cases e with
  | ok e => exact ⟨_, _, rfl, rfl, e⟩
  | error r => exact ⟨_, _, rfl, rfl, k.enterFault h r⟩

theorem formF1R_same (ra : Byte) {f : Reg → State → Result} (e : ∀ a, SameResult R (f a s) (f a u)) :
    BothNext R (formF1R ra f s) (formF1R ra f u) := by
  unfold formF1R
  split
  · exact commit_same k h (.error _)
  · exact commit_same k h (e _)

theorem formF2RI_same (ra imm : Byte) {f : Reg → Byte → State → Result}
    (e : ∀ a, SameResult R (f a imm s) (f a imm u)) : BothNext R (formF2RI ra imm f s) (formF2RI ra imm f u) := by
  unfold formF2RI
  split
  · exact commit_same k h (.error _)
  · exact commit_same k h (e _)

theorem formF2RR_same (ra rb : Byte) {f : Reg → Reg → State → Result}
    (e : ∀ a b, SameResult R (f a b s) (f a b u)) : BothNext R (formF2RR ra rb f s) (formF2RR ra rb f u) := by
  unfold formF2RR
  split
  · exact commit_same k h (.error _)
  · split
    · exact commit_same k h (.error _)
    · exact commit_same k h (e _ _)

theorem advance_same (n : Nat) : SameResult R (advance n s) (advance n u) := by
  unfold advance
  rw [k.pc h]
  split
  · exact .ok (k.setPc h _)
  · exact .error _

theorem push_same (i : Reg) : SameResult R (push i s) (push i u) := by
  unfold push
  have hs := k.setReg h spReg (s.sp - 1)
  rw [show u.sp = s.sp from (k.reg h spReg).symm]
  split
  · exact .error _
  · dsimp only
    rw [← k.reg hs i, show (u.setReg spReg (s.sp - 1)).sp = (s.setReg spReg (s.sp - 1)).sp from (k.reg hs 7).symm]
    exact .ok (k.store hs _ _)

theorem pop_same (i : Reg) (hl : s.load s.sp = u.load u.sp) : SameResult R (pop i s) (pop i u) := by
  unfold pop
  rw [← hl]
  have hs := k.setReg h i (s.load s.sp)
  have hsp : (u.setReg i (s.load s.sp)).sp = (s.setReg i (s.load s.sp)).sp := (k.reg hs 7).symm
  dsimp only
  rw [hsp]
  split
  · exact .error _
  · exact .ok (k.setReg hs _ _)

theorem aluWrite_same (f : Byte → Byte → Byte) (a b : Reg) :
    SameResult R (aluWrite f a b s) (aluWrite f a b u) := by
  unfold aluWrite
  rw [← k.reg h a, ← k.reg h b]
  exact advance_same k (k.setReg h _ _) 2

theorem aluDivide_same (f : Byte → Byte → Byte) (a b : Reg) :
    SameResult R (aluDivide f a b s) (aluDivide f a b u) := by
  unfold aluDivide
  rw [← k.reg h b]
  split
  · exact .error _
  · exact aluWrite_same k h f a b

theorem branch_same (taken : Bool) (a : Reg) : SameResult R (branch taken a s) (branch taken a u) := by
  unfold branch
  rw [← k.reg h a]
  split
  · exact .ok (k.setPc h _)
  · exact advance_same k h 1

omit h in
theorem thenAdvance_same (n : Nat) {x y : Result} (e : SameResult R x y) :
    SameResult R (thenAdvance n x) (thenAdvance n y) := by
  cases e with
  | ok e => exact advance_same k e n
  | error r => exact .error r

theorem call_same (a : Reg) : SameResult R (call a s) (call a u) := by
  unfold call
  rw [← k.pc h]
  split
  · exact .error _
  rename_i p _
  have hp := push_same k (k.setReg h linkReg p) linkReg
  generalize push linkReg (s.setReg linkReg p) = x at hp ⊢
  generalize push linkReg (u.setReg linkReg p) = y at hp ⊢
  cases hp with
  | error r => exact .error r
  | ok e =>
    simp only
    rw [k.reg e]
    exact .ok (k.setPc e _)

theorem ret_same (hl : s.load s.sp = u.load u.sp) : SameResult R (ret s) (ret u) := by
  unfold ret
  have hp := pop_same k h linkReg hl
  generalize pop linkReg s = x at hp ⊢
  generalize pop linkReg u = y at hp ⊢
  cases hp with
  | error r => exact .error r
  | ok e =>
    simp only
    rw [k.reg e]
    exact .ok (k.setPc e _)

/-- Related states run an instruction to related states, if they agree on FL.E for the branches and on the popped
cell for POP and RET. -/
theorem exec_same (i : Instr) (hf : (∃ ra, i = .jeq ra ∨ i = .jne ra) → s.flE = u.flE)
    (hl : (∃ ra, i = .pop ra) ∨ i = .ret → s.load s.sp = u.load u.sp) : BothNext R (exec i s) (exec i u) := by
  cases i with
  | hlt => exact ⟨_, _, rfl, rfl, k.halt h⟩
  | ldi ra imm =>
    simp only [exec, execLdi]
    exact formF2RI_same k h ra imm (f := fun a v t => thenAdvance 2 (.ok (t.setReg a v))) fun a => advance_same k (k.setReg h a imm) 2
  | prn ra =>
    simp only [exec, execPrn]
    refine formF1R_same k h ra fun a => ?_
    simp only [← k.reg h a]
    exact advance_same k (k.emit h _) 1
  | push ra =>
    simp only [exec, execPush]
    exact formF1R_same k h ra (f := fun a t => thenAdvance 1 (push a t)) fun a => thenAdvance_same k 1 (push_same k h a)
  | pop ra =>
    simp only [exec, execPop]
    exact formF1R_same k h ra (f := fun a t => thenAdvance 1 (pop a t)) fun a =>
      thenAdvance_same k 1 (pop_same k h a (hl (.inl ⟨ra, rfl⟩)))
  | add ra rb => exact formF2RR_same k h ra rb (aluWrite_same k h _)
  | sub ra rb => exact formF2RR_same k h ra rb (aluWrite_same k h _)
  | mul ra rb => exact formF2RR_same k h ra rb (aluWrite_same k h _)
  | div ra rb => exact formF2RR_same k h ra rb (aluDivide_same k h _)
  | mod ra rb => exact formF2RR_same k h ra rb (aluDivide_same k h _)
  | and ra rb => exact formF2RR_same k h ra rb (aluWrite_same k h _)
  | or ra rb => exact formF2RR_same k h ra rb (aluWrite_same k h _)
  | xor ra rb => exact formF2RR_same k h ra rb (aluWrite_same k h _)
  | shl ra rb => exact formF2RR_same k h ra rb (aluWrite_same k h _)
  | shr ra rb => exact formF2RR_same k h ra rb (aluWrite_same k h _)
  | not ra =>
    simp only [exec, execNot]
    refine formF1R_same k h ra fun a => ?_
    simp only [← k.reg h a]
    exact advance_same k (k.setReg h _ _) 1
  | cmp ra rb =>
    simp only [exec, execCmp]
    refine formF2RR_same k h ra rb fun a b => ?_
    simp only [← k.reg h a, ← k.reg h b]
    exact advance_same k (k.setFl h _) 2
  | call ra => exact formF1R_same k h ra (call_same k h)
  | ret => exact commit_same k h (ret_same k h (hl (.inr rfl)))
  | jmp ra =>
    simp only [exec, execJmp]
    refine formF1R_same k h ra fun a => ?_
    simp only [← k.reg h a]
    exact .ok (k.setPc h _)
  | jeq ra =>
    simp only [exec, execJeq]
    refine formF1R_same k h ra fun a => ?_
    simp only [← hf ⟨ra, .inl rfl⟩]
    exact branch_same k h _ a
  | jne ra =>
    simp only [exec, execJne]
    refine formF1R_same k h ra fun a => ?_
    simp only [← hf ⟨ra, .inr rfl⟩]
    exact branch_same k h _ a

end

end Sys2Proof.Machine
end

