-- ==== Sys2Proof/Tests/Slice0.lean ====
section
/-! SUPPORT. Tests: well-formedness, decoding, one step each against 95_test_vectors.md, and a witness for the
hypotheses of every obligation that has some. Expected results are the spec's, never the model's answer. -/

namespace Sys2Proof.Tests

open Sys2Proof.Machine

/-! ## A small state: the vectors' conventions (95_test_vectors.md) -/

/-- RUNNING with these bytes at the PC, these other cells, R0 to R6 zero and SP = 0xF4 but for the listed registers. -/
def at_ (pc : Byte) (bytes : List Byte) (regs : List (Reg × Byte)) (cells : List Host.Cell) (fl : BitVec 3) : State :=
  let base : State := { State.reset with pc := pc, fl := fl, runState := .running }
  let withRegs := regs.foldl (fun s p => s.setReg p.1 p.2) base
  let withCells := cells.foldl (fun (m : Memory) c => m.write c.1 c.2) withRegs.mem
  { withRegs with mem := writeCells bytes pc.toNat withCells }

/-- The same with FL = E and no other cells. -/
def here (pc : Byte) (bytes : List Byte) (regs : List (Reg × Byte)) : State := at_ pc bytes regs [] flagE

/-- The state after one STEP. -/
def after (s : State) : State :=
  match step s with
  | .next t => t
  | .fault _ => s
  | .refused _ => s

/-- The fault record as numbers: cause, FAULT_PC, FAULT_IR, FAULT_INFO; and the registers, FL, OUT and PC kept. -/
def faultsWith (s : State) (cause : FaultCause) (pc ir : Byte) (info : BitVec 9) : Bool :=
  let t := after s
  t.runState = .faulted && t.fault = ⟨cause, pc, ir, info⟩ && t.regs = s.regs && t.fl = s.fl && t.mem = s.mem &&
    t.out = s.out && t.pc = s.pc

/-! ## WellFormed refuses (30_encoding.md R74, R75) -/

theorem test_wf_ldi_immediate_is_free : (Instr.ldi 7 0xFF).WellFormed := by decide
theorem test_wf_refuses_ldi_register : ¬ (Instr.ldi 8 0).WellFormed := by decide
theorem test_wf_refuses_f1r : ∀ i ∈ [Instr.prn 8, .push 8, .pop 8, .not 255, .call 8, .jmp 8, .jeq 8, .jne 0x80],
    ¬ i.WellFormed := by decide
theorem test_wf_refuses_op1 : ∀ i ∈ [Instr.add 8 0, .sub 8 0, .mul 8 0, .div 8 0, .mod 8 0, .and 8 0, .or 8 0,
    .xor 8 0, .shl 8 0, .shr 8 0, .cmp 8 0], ¬ i.WellFormed := by decide
theorem test_wf_refuses_op2 : ∀ i ∈ [Instr.add 0 8, .sub 0 8, .mul 0 8, .div 0 8, .mod 0 8, .and 0 8, .or 0 8,
    .xor 0 8, .shl 0 8, .shr 0 8, .cmp 0 8], ¬ i.WellFormed := by decide
theorem test_wf_takes_hlt_and_ret : Instr.hlt.WellFormed ∧ Instr.ret.WellFormed := by decide
theorem test_wf_takes_top_register : (Instr.cmp 7 7).WellFormed ∧ (Instr.pop 7).WellFormed := by decide

/-! ## Decoding: one word for each constructor, from the table of 30_encoding.md R76 and the formats of R73 -/

theorem test_decode_hlt : decodeBytes [0b00000001] = .ok (.hlt, []) := by rfl
theorem test_decode_ldi : decodeBytes [0b10000010, 0b00000011, 0b11111111] = .ok (.ldi 3 255, []) := by rfl
theorem test_decode_prn : decodeBytes [0b01000111, 0b00000010] = .ok (.prn 2, []) := by rfl
theorem test_decode_push : decodeBytes [0b01000101, 0b00000111] = .ok (.push 7, []) := by rfl
theorem test_decode_pop : decodeBytes [0b01000110, 0b00000001] = .ok (.pop 1, []) := by rfl
theorem test_decode_add : decodeBytes [0b10100000, 0b00000001, 0b00000010] = .ok (.add 1 2, []) := by rfl
theorem test_decode_sub : decodeBytes [0b10100001, 0b00000001, 0b00000010] = .ok (.sub 1 2, []) := by rfl
theorem test_decode_mul : decodeBytes [0b10100010, 0b00000001, 0b00000010] = .ok (.mul 1 2, []) := by rfl
theorem test_decode_div : decodeBytes [0b10100011, 0b00000001, 0b00000010] = .ok (.div 1 2, []) := by rfl
theorem test_decode_mod : decodeBytes [0b10100100, 0b00000001, 0b00000010] = .ok (.mod 1 2, []) := by rfl
theorem test_decode_and : decodeBytes [0b10101000, 0b00000001, 0b00000010] = .ok (.and 1 2, []) := by rfl
theorem test_decode_or : decodeBytes [0b10101010, 0b00000001, 0b00000010] = .ok (.or 1 2, []) := by rfl
theorem test_decode_xor : decodeBytes [0b10101011, 0b00000001, 0b00000010] = .ok (.xor 1 2, []) := by rfl
theorem test_decode_not : decodeBytes [0b01101001, 0b00000101] = .ok (.not 5, []) := by rfl
theorem test_decode_shl : decodeBytes [0b10101100, 0b00000001, 0b00000010] = .ok (.shl 1 2, []) := by rfl
theorem test_decode_shr : decodeBytes [0b10101101, 0b00000001, 0b00000010] = .ok (.shr 1 2, []) := by rfl
theorem test_decode_cmp : decodeBytes [0b10100111, 0b00000001, 0b00000010] = .ok (.cmp 1 2, []) := by rfl
theorem test_decode_call : decodeBytes [0b01010000, 0b00000001] = .ok (.call 1, []) := by rfl
theorem test_decode_ret : decodeBytes [0b00010001, 0b00000001] = .ok (.ret, [0b00000001]) := by rfl
theorem test_decode_jmp : decodeBytes [0b01010100, 0b00000011] = .ok (.jmp 3, []) := by rfl
theorem test_decode_jeq : decodeBytes [0b01010101, 0b00000010] = .ok (.jeq 2, []) := by rfl
theorem test_decode_jne : decodeBytes [0b01010110, 0b00000010] = .ok (.jne 2, []) := by rfl

/-- Bytes of 30_encoding.md R80 that are no opcode: zero, and neighbours of real ones. -/
theorem test_decode_refuses_illegal : ∀ b ∈ ([0x00, 0x02, 0xA5, 0xA6, 0xA9, 0xAE, 0xC2, 0xFF] : List Byte),
    decode b [0, 0] = .error (.illegalOpcode b) := by decide
theorem test_decode_refuses_missing_op1 : decodeBytes [0x82] = .error (.missingByte 1) := by rfl
theorem test_decode_refuses_missing_op2 : decodeBytes [0xA0, 0x00] = .error (.missingByte 2) := by rfl
theorem test_decode_keeps_bad_register : decodeBytes [0x47, 0x08] = .ok (.prn 8, []) := by rfl

/-- The table's numbering: bit 0 is the least significant bit of the first byte. -/
theorem test_table_word_ldi : decodeTableWord 24 0x080082 = some (.ldi 0 8) := by rfl
theorem test_table_word_short : decodeTableWord 8 0x82 = some (.ldi 0 0) := by rfl
theorem test_table_word_illegal : decodeTableWord 8 0xA5 = none := by rfl
theorem test_fetch_word_runs_it :
    let t := after (State.reset.withFetchWord 24 0x080082)
    t.reg 0 = 8 ∧ t.pc = 3 ∧ t.runState = .running := by decide

/-- The source's examples (30_encoding.md R81); R8 has no text. -/
theorem test_assembly : (Instr.ldi 0 8).assembly = some "LDI R0,8" ∧ (Instr.mul 0 1).assembly = some "MUL R0,R1" ∧
    (Instr.prn 0).assembly = some "PRN R0" ∧ (Instr.prn 8).assembly = none := by decide

/-! ## One step each (95_test_vectors.md part 2; the vector's id is named) -/

/-- V-C2. -/
theorem test_hlt_at_the_top : (after (here 0xFF [0x01] [])).runState = .halted ∧
    (after (here 0xFF [0x01] [])).pc = 0xFF := by
  decide
/-- V-C12. -/
theorem test_ldi_last_place : let t := after (here 0xFC [0x82, 0x00, 0x33] []); t.reg 0 = 0x33 ∧ t.pc = 0xFF := by
  decide
/-- V-C17. -/
theorem test_ldi_sp : let t := after (here 0x10 [0x82, 0x07, 0xFF] []); t.reg 7 = 0xFF ∧ t.pc = 0x13 := by decide
/-- V-S5. -/
theorem test_prn_sp : let t := after (here 0x00 [0x47, 0x07] []); t.out = [244] ∧ t.pc = 0x02 := by decide
/-- V-C13. -/
theorem test_prn_pc_range : faultsWith (here 0xFE [0x47, 0x00] [(0, 5)]) .pcRange 0xFE 0x47 256 := by decide
/-- V-S7. -/
theorem test_push_sp : let t := after (here 0x00 [0x45, 0x07] []); t.reg 7 = 0xF3 ∧ t.mem.read 0xF3 = 0xF3 := by
  decide
/-- V-S9. -/
theorem test_push_range : faultsWith (here 0x00 [0x45, 0x00] [(0, 5), (7, 0)]) .stackPushRange 0x00 0x45 0 := by
  decide
/-- V-S12. -/
theorem test_pop_sp : (after (at_ 0x00 [0x46, 0x07] [(7, 0xF3)] [(0xF3, 0x20)] flagE)).reg 7 = 0x21 := by decide
/-- V-S14. -/
theorem test_pop_range_of_popped : faultsWith (at_ 0x00 [0x46, 0x07] [(7, 0xF0)] [(0xF0, 0xFF)] flagE)
    .stackPopRange 0x00 0x46 255 := by decide
/-- V-A1. -/
theorem test_add_wraps : (after (here 0x00 [0xA0, 0x00, 0x01] [(0, 0xFF), (1, 0x02)])).reg 0 = 0x01 := by decide
/-- V-A51. -/
theorem test_add_pc_range : faultsWith (here 0xFD [0xA0, 0x00, 0x01] [(0, 1), (1, 2)]) .pcRange 0xFD 0xA0 256 := by
  decide
/-- V-A6. -/
theorem test_sub_wraps : (after (here 0x00 [0xA1, 0x00, 0x01] [(1, 0x01)])).reg 0 = 0xFF := by decide
/-- V-A50. -/
theorem test_sub_keeps_fl : (after (at_ 0x00 [0xA1, 0x00, 0x01] [(0, 5), (1, 5)] [] flagG)).fl = flagG := by decide
/-- V-A11. -/
theorem test_mul_wraps : (after (here 0x00 [0xA2, 0x00, 0x01] [(0, 0xFF), (1, 0xFF)])).reg 0 = 0x01 := by decide
/-- V-A15. -/
theorem test_div_unsigned : (after (here 0x00 [0xA3, 0x00, 0x01] [(0, 0xFF), (1, 0x10)])).reg 0 = 0x0F := by decide
/-- V-C18. -/
theorem test_div_by_zero_first : faultsWith (here 0xFD [0xA3, 0x00, 0x01] [(0, 7)]) .divideByZero 0xFD 0xA3 1 := by
  decide
/-- V-A22. -/
theorem test_mod_small : (after (here 0x00 [0xA4, 0x00, 0x01] [(0, 5), (1, 7)])).reg 0 = 5 := by decide
/-- V-A25. -/
theorem test_mod_by_zero : faultsWith (here 0x00 [0xA4, 0x02, 0x05] [(2, 5)]) .divideByZero 0x00 0xA4 5 := by decide
/-- V-A26. -/
theorem test_and : (after (here 0x00 [0xA8, 0x00, 0x01] [(0, 0xF0), (1, 0x3C)])).reg 0 = 0x30 := by decide
/-- V-A27. -/
theorem test_or : (after (here 0x00 [0xAA, 0x00, 0x01] [(0, 0xF0), (1, 0x0F)])).reg 0 = 0xFF := by decide
/-- V-A29. -/
theorem test_xor_same : (after (here 0x00 [0xAB, 0x01, 0x01] [(1, 0x6C)])).reg 1 = 0x00 := by decide
/-- V-A31. -/
theorem test_not : let t := after (here 0x00 [0x69, 0x00] [(0, 0x5A)]); t.reg 0 = 0xA5 ∧ t.pc = 0x02 := by decide
/-- V-A33. -/
theorem test_shl_drops_top : (after (here 0x00 [0xAC, 0x00, 0x01] [(0, 0x81), (1, 0x01)])).reg 0 = 0x02 := by decide
/-- V-A37. -/
theorem test_shl_by_200 : (after (here 0x00 [0xAC, 0x00, 0x01] [(0, 0x03), (1, 0xC8)])).reg 0 = 0x00 := by decide
/-- V-A40. -/
theorem test_shr_is_logical : (after (here 0x00 [0xAD, 0x00, 0x01] [(0, 0x80), (1, 0x01)])).reg 0 = 0x40 := by decide
/-- V-A41. -/
theorem test_shr_by_8 : (after (here 0x00 [0xAD, 0x00, 0x01] [(0, 0xFF), (1, 0x08)])).reg 0 = 0x00 := by decide
/-- V-A45. -/
theorem test_cmp_equal : (after (at_ 0x00 [0xA7, 0x00, 0x01] [(0, 7), (1, 7)] [] flagL)).fl = flagE := by decide
/-- V-A47. -/
theorem test_cmp_unsigned : (after (here 0x00 [0xA7, 0x00, 0x01] [(0, 0x80), (1, 0x7F)])).fl = flagG := by decide
/-- V-F2. -/
theorem test_call_r6 :
    let t := after (here 0x20 [0x50, 0x06] [(6, 0x99)])
    t.reg 6 = 0x22 ∧ t.reg 7 = 0xF3 ∧ t.mem.read 0xF3 = 0x22 ∧ t.pc = 0x22 := by decide
/-- V-F6. -/
theorem test_call_push_range : faultsWith (here 0x10 [0x50, 0x01] [(1, 0x40), (6, 0x99), (7, 0)])
    .stackPushRange 0x10 0x50 0 := by decide
/-- V-F9. -/
theorem test_ret_at_the_top :
    let t := after (at_ 0xFF [0x11] [(7, 0xF3)] [(0xF3, 0x08)] flagE)
    t.reg 6 = 0x08 ∧ t.reg 7 = 0xF4 ∧ t.pc = 0x08 := by decide
/-- V-F10. -/
theorem test_ret_pop_range : faultsWith (at_ 0x30 [0x11] [(6, 0x12), (7, 0xFF)] [(0xFF, 0x08)] flagE)
    .stackPopRange 0x30 0x11 255 := by decide
/-- V-F13. -/
theorem test_jmp_at_254 : (after (here 0xFE [0x54, 0x03] [(3, 0x0C)])).pc = 0x0C := by decide
/-- V-F18. -/
theorem test_jeq_not_taken : (after (at_ 0x10 [0x55, 0x02] [(2, 0x40)] [] 0b000)).pc = 0x12 := by decide
/-- V-F21. -/
theorem test_jeq_checks_index : faultsWith (at_ 0x10 [0x55, 0x08] [] [] flagL) .registerIndex 0x10 0x55 8 := by decide
/-- V-F22. -/
theorem test_jne_taken : (after (at_ 0x10 [0x56, 0x02] [(2, 0x40)] [] flagL)).pc = 0x40 := by decide
/-- V-F25. -/
theorem test_jne_pc_range : faultsWith (here 0xFE [0x56, 0x02] [(2, 0x40)]) .pcRange 0xFE 0x56 256 := by decide
/-- V-C4. -/
theorem test_illegal_opcode : faultsWith (here 0x10 [0xA5, 0x00, 0x01] []) .illegalOpcode 0x10 0xA5 165 := by decide
/-- V-C9. -/
theorem test_operand_range_first : faultsWith (here 0xFE [0x82, 0x09] []) .operandRange 0xFE 0x82 256 := by decide
/-- V-C16. -/
theorem test_op1_before_op2 : faultsWith (here 0x10 [0xA0, 0x08, 0x09] []) .registerIndex 0x10 0xA0 8 := by decide

/-- LOAD and START act only while IDLE (70_reset_and_hazards.md R216). -/
theorem test_load_while_running : portStart (portLoad 0 0xFF (here 0 [0x01] [])) = here 0 [0x01] [] := by decide
/-- RESET leaves memory untouched (92_eei_decisions.md D23), in any RUN_STATE. -/
theorem test_reset_keeps_memory :
    let t := portReset .chosen (after (here 0x10 [0xA5, 0x00, 0x01] []))
    t.mem.read 0x10 = 0xA5 ∧ t.mem.read 0x12 = 0x01 ∧ t.runState = .idle := by decide
/-- V-C4 at the port: RUN_STATE 3, FAULT_CAUSE 1 (10_state.md R34, 60_exceptions.md R181). -/
theorem test_observe_fault :
    let o := (after (here 0x10 [0xA5, 0x00, 0x01] [])).observe
    o.runState = 3 ∧ o.faultCause = 1 ∧ o.faultPc = 0x10 ∧ o.faultIr = 0xA5 ∧ o.faultInfo = 165 := by decide

/-- Every step answers a next state, so `after` is it. -/
theorem step_after (s : State) : step s = .next (after s) := by
  have h : ∃ t, step s = .next t := by
    unfold step runInstruction
    split
    · split
      · exact commit_next _ _
      · exact exec_next _ _
    all_goals exact ⟨s, rfl⟩
  obtain ⟨t, h⟩ := h
  simp only [after, h]

/-! ## Witnesses: concrete states and operands that meet every hypothesis of an obligation, at the edges of its
clauses -/

theorem witness_LengthComesFromBits76 : (0xC0 : Byte).extractLsb' 6 2 = 3 ∧ (0xFF : Byte).extractLsb' 6 2 = 3 := by
  decide

theorem witness_StepRunsTheDecodedInstruction :
    let s := here 253 [0xA7, 0x00, 0x07] []
    let u := here 255 [0x01] []
    (s.runState = .running ∧ ∀ k (h : k < (encode (.cmp 0 7)).length), s.pc.toNat + k ≤ 255 ∧
      s.byteAt k = (encode (.cmp 0 7))[k]) ∧
    (u.runState = .running ∧ ∀ k (h : k < (encode .hlt).length), u.pc.toNat + k ≤ 255 ∧
      u.byteAt k = (encode .hlt)[k]) := by
  decide

theorem witness_StepOutsideRunningChangesNothing :
    State.reset.runState ≠ .running ∧ (after (here 0 [0x01] [])).runState ≠ .running ∧
    (after (here 0 [0x00] [])).runState ≠ .running := by decide

theorem witness_FetchLoadsIR : (here 255 [0x47] []).runState = .running := by decide

theorem witness_IllegalOpcodeFaults :
    let s := here 255 [0xA5] []
    s.runState = .running ∧ ∀ row ∈ opcodeRows, row.1 ≠ s.byteAt 0 := by decide

theorem witness_OperandFetchReadsOrFaults :
    (0x82, 2, false, 1) ∈ opcodeRows ∧ (0x47, 1, false, 1) ∈ opcodeRows ∧ (0x01, 0, false, 0) ∈ opcodeRows ∧
    (let s := here 254 [0x82, 0x00] []; s.At 0x82 ∧ s.pc.toNat + 2 > 255) ∧
    (let s := here 253 [0x82, 0x00, 0x01] []; s.At 0x82 ∧ s.pc.toNat + 2 ≤ 255) ∧
    (let s := here 255 [0x47] []; s.At 0x47 ∧ s.pc.toNat + 1 > 255) ∧
    (let s := here 255 [0x01] []; s.At 0x01 ∧ s.pc.toNat + 0 ≤ 255) ∧
    (let s := here 253 [0x47, 0x00] []; s.At 0x47 ∧ s.pc.toNat + 1 ≤ 255 ∧ 1 < 2 ∧ s.pc.toNat + 2 ≤ 255) := by decide

theorem witness_RegisterOperandsAreValidatedFirst :
    (∃ (s : State) (i : Instr), s.runState = .running ∧ decode s.opcodeAtPc s.operandsAtPc = .ok i ∧
      i.regBytes = [7] ++ 8 :: [] ∧ (∀ c ∈ [7], namesReg c) ∧ ¬ namesReg 8) ∧
    (∃ (s : State) (i : Instr), s.runState = .running ∧ decode s.opcodeAtPc s.operandsAtPc = .ok i ∧
      i.regBytes = [] ++ 0xFF :: [] ∧
      ¬ namesReg 0xFF) ∧
    (∃ (s : State) (i : Instr), s.runState = .running ∧ decode s.opcodeAtPc s.operandsAtPc = .ok i ∧ i.WellFormed) :=
  ⟨⟨here 0 [0xA0, 7, 8] [], .add 7 8, rfl, rfl, rfl, by decide, by decide⟩,
    ⟨here 0 [0x55, 0xFF] [], .jeq 0xFF, rfl, rfl, rfl, by decide⟩,
    ⟨here 0 [0xA0, 7, 7] [], .add 7 7, rfl, rfl, by decide⟩⟩

theorem witness_SequentialAdvanceNeverWraps :
    (∃ s t : State, s.runState = .running ∧ pcControl (opcodeByte (instrOpcode (.ldi 0 1))) = false ∧
      exec (.ldi 0 1) s = .next t ∧ t.runState = .running) ∧
    (∃ s t : State, s.runState = .running ∧ exec (.ldi 0 1) s = .next t ∧
      s.pc.toNat + (encode (.ldi 0 1)).length > 255) :=
  ⟨⟨here 252 [0x82, 0, 1] [], _, rfl, by decide, rfl, rfl⟩, ⟨here 253 [0x82, 0, 1] [], _, rfl, rfl, by decide⟩⟩

theorem witness_StepTakesExactlyTheFirstFault :
    firstFault (here 0 [0x00] []) = some (.illegalOpcode, 0) ∧
    firstFault (here 254 [0x82, 0x09] []) = some (.operandRange, 256) ∧
    firstFault (here 253 [0xA3, 0x08, 0x09] []) = some (.registerIndex, 8) ∧
    firstFault (here 253 [0xA3, 0x00, 0x01] []) = some (.divideByZero, 1) ∧
    firstFault (here 254 [0x45, 0x00] [(7, 0)]) = some (.stackPushRange, 0) ∧
    firstFault (here 255 [0x11] [(7, 255)]) = some (.stackPopRange, 255) ∧
    firstFault (here 254 [0x50, 0x00] [(7, 0)]) = some (.pcRange, 256) ∧
    firstFault (here 253 [0xA0, 0x00, 0x01] []) = some (.pcRange, 256) ∧
    firstFault (here 252 [0xA0, 0x00, 0x01] []) = none ∧ firstFault (here 255 [0x01] []) = none := by decide

theorem witness_FaultInfoByCause : ∀ s ∈ [here 0 [0x00] [], here 254 [0x82] [], here 0 [0xA0, 0, 8] [],
      here 0 [0xA3, 0, 7] [(7, 0)], here 0 [0x45, 0] [(7, 0)], here 0 [0x46, 0] [(7, 255)], here 254 [0x47, 0] []],
    s.runState = .running ∧ step s = .next (after s) ∧ (after s).runState = .faulted := by
  have h : ∀ s ∈ [here 0 [0x00] [], here 254 [0x82] [], here 0 [0xA0, 0, 8] [], here 0 [0xA3, 0, 7] [(7, 0)],
      here 0 [0x45, 0] [(7, 0)], here 0 [0x46, 0] [(7, 255)], here 254 [0x47, 0] []],
    s.runState = .running ∧ (after s).runState = .faulted := by decide
  exact fun s hs => ⟨(h s hs).1, step_after s, (h s hs).2⟩

theorem witness_RunStateTransitions :
    (∃ t, portAct .start State.reset = .next t ∧ t.runState = .running) ∧
    (∃ t, portAct .step (here 0 [0x01] []) = .next t ∧ t.runState = .halted) ∧
    (∃ t, portAct .step (here 0 [0x00] []) = .next t ∧ t.runState = .faulted) ∧
    (∃ t, portAct (.reset .chosen) (here 0 [0x00] []) = .next t ∧ t.runState = .idle) ∧
    (∃ t, portAct (.load 255 1) State.reset = .next t ∧ t.runState = .idle) ∧
    (after (here 0 [0x01] [])).Ended :=
  ⟨⟨_, rfl, rfl⟩, ⟨_, rfl, rfl⟩, ⟨_, rfl, rfl⟩, ⟨_, rfl, rfl⟩, ⟨_, rfl, rfl⟩, .inl rfl⟩

theorem witness_EndedStatesStayUntilReset :
    (after (here 0 [0x01] [])).Ended ∧ (after (here 0 [0x00] [])).Ended ∧
    ∀ p, PortEvent.reset p ∉ [PortEvent.load 0 1, .start, .step] := by
  refine ⟨by decide, by decide, fun p => by simp⟩

/-- A RUNNING state that meets the invariant. -/
theorem inv_here : (here 0 [0x01] []).Inv :=
  ⟨by decide, by decide, fun h => absurd h (by decide), by decide⟩

theorem witness_StepKeepsTheInvariant :
    ((here 0 [0x01] []).Inv ∧ step (here 0 [0x01] []) = .next (after (here 0 [0x01] []))) ∧
    (after (here 0 [0x01] [])).Inv ∧ (after (here 255 [0x11] [(7, 255)])).Inv := by
  refine ⟨⟨inv_here, step_after _⟩, ⟨by decide, by decide, fun h => absurd h (by decide), by decide⟩, ?_⟩
  exact ⟨by decide, by decide, fun _ => ⟨by decide, by decide, rfl⟩, by decide⟩

theorem witness_ResetMeetsTheInvariant : Memory.wf [(0, 1), (255, 0xFF)] := by decide

theorem witness_InputsKeepTheInvariant :
    (here 0 [0x01] []).Inv ∧
    ∃ t, portAll [PortEvent.step, .reset .chosen, .load 255 1, .start] (here 0 [0x01] []) = .next t := by
  exact ⟨inv_here, ⟨_, rfl⟩⟩

theorem witness_FlagsStayOneHot :
    let s := at_ 0 [0xA7, 0, 1] [] [] 0b111
    let u := at_ 0 [0x11] [] [] 0b100
    (s.runState = .running ∧ step s = .next (after s) ∧ s.byteAt 0 = 0xA7 ∧ (after s).runState = .running) ∧
    (u.runState = .running ∧ step u = .next (after u) ∧ u.fl = 0b100) :=
  ⟨⟨by decide, step_after _, by decide, by decide⟩, by decide, step_after _, by decide⟩

theorem witness_OnlyPrnAppendsToOut :
    let s := here 253 [0x47, 7] []
    let u := here 0 [0x46, 0] []
    let f := here 254 [0x47, 7] []
    (s.runState = .running ∧ step s = .next (after s) ∧ s.byteAt 0 = 0x47 ∧ (after s).runState = .running) ∧
    (u.runState = .running ∧ step u = .next (after u) ∧ u.byteAt 0 ≠ 0x47) ∧
    (f.runState = .running ∧ step f = .next (after f) ∧ (after f).runState = .faulted) :=
  ⟨⟨by decide, step_after _, by decide, by decide⟩, ⟨by decide, step_after _, by decide⟩,
    by decide, step_after _, by decide⟩

theorem witness_FlagsAreReadByBranchesOnly :
    (0b110 : BitVec 3).getLsbD 0 = (at_ 0 [0x55, 0] [] [] 0b000).fl.getLsbD 0 ∧
    ¬ ∃ ra, Instr.cmp 0 1 = .jeq ra ∨ Instr.cmp 0 1 = .jne ra := by
  refine ⟨by decide, ?_⟩
  rintro ⟨ra, h | h⟩ <;> cases h

theorem witness_LatchesCarryNothingOver : (here 255 [0x11] []).runState = .running := by decide

theorem witness_LoadPlacesTheImage :
    (List.replicate 256 (1 : Byte)).length ≤ 256 ∧ State.reset.runState = .idle ∧
    (here 0 [0x01] []).runState ≠ .idle :=
  ⟨Nat.le_of_eq (List.length_replicate ..), by decide, by decide⟩

theorem witness_StartRunsFromAddressZero :
    (here 0 [0x01] []).runState ≠ .idle ∧ (after (here 0 [0x01] [])).runState ≠ .idle := by decide

theorem witness_HostInputsByRunState :
    State.reset.runState = .idle ∧ (here 0 [0x01] []).runState ≠ .idle ∧
    (after (here 0 [0x01] [])).runState ≠ .running := by decide

theorem witness_RunStopsOnlyAtAnEnd :
    (∃ t, run 1 (here 0 [0x01] []) = .next t ∧ t.runState ≠ .running) ∧
    (∃ t, run 1 (here 0 [0x82, 0, 1] []) = .next t ∧ t.runState = .running) ∧
    (here 0 [0x82, 0, 1] []).runState = .running :=
  ⟨⟨_, rfl, by decide⟩, ⟨_, rfl, by decide⟩, by decide⟩

theorem witness_OnlyPushAndCallWriteMemory :
    let s := here 0 [0x45, 0] [(0, 5), (7, 1)]
    let u := here 0 [0x50, 0] []
    (s.runState = .running ∧ step s = .next (after s) ∧ (after s).mem.read 0 ≠ s.mem.read 0) ∧
    (u.runState = .running ∧ step u = .next (after u) ∧ (after u).mem.read 0xF3 ≠ u.mem.read 0xF3) :=
  ⟨⟨by decide, step_after _, by decide⟩, by decide, step_after _, by decide⟩

theorem witness_MemoryIsReachedOnlyAsR53Says :
    let s := here 252 [0x46, 0] []
    s.runState = .running ∧ 254 ≠ s.pc.toNat ∧
    (∀ row ∈ opcodeRows, row.1 = s.byteAt 0 → ∀ k, 1 ≤ k → k ≤ row.2.1 → 254 ≠ s.pc.toNat + k) ∧
    (s.byteAt 0 = 0x46 ∨ s.byteAt 0 = 0x11 → 254 ≠ (s.reg 7).toNat) := by
  refine ⟨by decide, by decide, ?_, by decide⟩
  intro row hrow hb k h1 h2
  have hn : ∀ row ∈ opcodeRows, row.1 = (here 252 [0x46, 0] []).byteAt 0 → row.2.1 = 1 := by decide
  have := hn row hrow hb
  have hp : (here 252 [0x46, 0] []).pc.toNat = 252 := by decide
  omega

theorem witness_PushedByteIsFetchedNext :
    (∀ a ∈ ([0, 7] : List Reg), let s := here 252 [0x45, BitVec.ofNat 8 a.val] [(7, 255)];
      s.At 0x45 ∧ (s.byteAt 1).toNat = a.val ∧ s.pc.toNat ≤ 252 ∧ (s.reg 7).toNat = s.pc.toNat + 3) ∧
    (let s := here 253 [0x50, 7] [(7, 1)];
      s.At 0x50 ∧ (0xFF : Byte).toNat = s.pc.toNat + 2 ∧ step s = .next (after s) ∧ (after s).runState = .running ∧
      (after s).pc.toNat = (s.reg 7 - 1).toNat) ∧
    (let s := here 0 [0x45, 0, 0x47] [(0, 5), (7, 4)];
      s.At 0x45 ∧ (s.byteAt 1).toNat = (0 : Reg).val ∧ 5 = s.reg 0 ∧ step s = .next (after s) ∧
      (after s).runState = .running ∧ (0x47, 1, false, 1) ∈ opcodeRows ∧ 0x47 = (after s).byteAt 0 ∧
      (after s).pc.toNat + 1 ≤ 255 ∧ (after s).pc.toNat + 1 = (s.reg 7 - 1).toNat) ∧
    (let s := here 250 [0x45, 7, 0xA0] [(7, 0xFF)];
      s.At 0x45 ∧ (s.byteAt 1).toNat = (7 : Reg).val ∧ 0xFE = s.reg 7 - 1 ∧ step s = .next (after s) ∧
      (after s).runState = .running ∧ (0xA0, 2, false, 2) ∈ opcodeRows ∧ 0xA0 = (after s).byteAt 0 ∧
      (after s).pc.toNat + 2 ≤ 255 ∧ (after s).pc.toNat + 2 = (s.reg 7 - 1).toNat) := by
  refine ⟨by decide, ⟨by decide, by decide, step_after _, by decide, by decide⟩, ?_, ?_⟩
  all_goals
    exact ⟨by decide, by decide, by decide, step_after _, by decide, by decide, by decide, by decide, by decide⟩

/-! Whole steps: the range fault, a bad first register, PC_RANGE at the last place, completion just before it. -/

theorem witness_LdiStep :
    (let s := here 254 [0x82, 0] []; s.At 0x82 ∧ s.pc.toNat + 2 > 255) ∧
    (let s := here 253 [0x82, 8, 0] []; s.At 0x82 ∧ s.pc.toNat + 2 ≤ 255 ∧ (s.byteAt 1).toNat > 7) ∧
    (let s := here 253 [0x82, 7, 0] []; s.At 0x82 ∧ (s.byteAt 1).toNat = (7 : Reg).val ∧ s.pc.toNat = 253) ∧
    (let s := here 252 [0x82, 7, 0] []; s.At 0x82 ∧ (s.byteAt 1).toNat = (7 : Reg).val ∧ s.pc.toNat ≤ 252) := by
  decide

/-- The one-operand forms with this opcode byte: the range fault, a bad register, the two last places. -/
abbrev F1REdges (op : Byte) : Prop :=
  (let s := here 255 [op] []; s.At op ∧ s.pc.toNat + 1 > 255) ∧
  (let s := here 254 [op, 8] []; s.At op ∧ s.pc.toNat + 1 ≤ 255 ∧ (s.byteAt 1).toNat > 7) ∧
  (let s := here 254 [op, 7] []; s.At op ∧ (s.byteAt 1).toNat = (7 : Reg).val ∧ s.pc.toNat = 254) ∧
  (let s := here 253 [op, 0] []; s.At op ∧ (s.byteAt 1).toNat = (0 : Reg).val ∧ s.pc.toNat ≤ 253)

/-- The forms with two registers and this opcode byte: the range fault, a bad op1, a bad op2, the two last places. -/
abbrev F2RREdges (op : Byte) : Prop :=
  (let s := here 254 [op, 0] []; s.At op ∧ s.pc.toNat + 2 > 255) ∧
  (let s := here 253 [op, 8, 9] []; s.At op ∧ s.pc.toNat + 2 ≤ 255 ∧ (s.byteAt 1).toNat > 7) ∧
  (let s := here 253 [op, 7, 8] []; s.At op ∧ s.pc.toNat + 2 ≤ 255 ∧ (s.byteAt 1).toNat ≤ 7 ∧
    (s.byteAt 2).toNat > 7) ∧
  (let s := here 253 [op, 0, 7] []; s.At op ∧ (s.byteAt 1).toNat = (0 : Reg).val ∧
    (s.byteAt 2).toNat = (7 : Reg).val ∧ s.pc.toNat = 253) ∧
  (let s := here 252 [op, 0, 7] []; s.At op ∧ (s.byteAt 1).toNat = (0 : Reg).val ∧
    (s.byteAt 2).toNat = (7 : Reg).val ∧ s.pc.toNat ≤ 252)

theorem witness_PrnStep : F1REdges 0x47 := by decide
theorem witness_PushStep : F1REdges 0x45 ∧ (here 254 [0x45, 7] [(7, 0)]).reg 7 = 0 ∧
    (here 253 [0x45, 0] [(7, 1)]).reg 7 ≠ 0 := by
  decide
theorem witness_PopStep : F1REdges 0x46 ∧ (here 254 [0x46, 0] [(7, 255)]).reg 7 = 255 ∧
    (here 254 [0x46, 0] [(7, 254)]).reg 7 ≠ 255 ∧
    (at_ 254 [0x46, 7] [] [(0xF4, 255)] flagE).mem.read ((at_ 254 [0x46, 7] [] [(0xF4, 255)] flagE).reg 7).toNat = 255 := by decide
theorem witness_AddSubMulStep : ∀ op ∈ ([0xA0, 0xA1, 0xA2] : List Byte), F2RREdges op := by decide
theorem witness_DivModStep : (∀ op ∈ ([0xA3, 0xA4] : List Byte), F2RREdges op) ∧
    (here 253 [0xA3, 0, 1] []).reg 1 = 0 ∧
    (here 253 [0xA3, 0, 7] []).reg 7 ≠ 0 := by decide
theorem witness_AndOrXorStep : ∀ op ∈ ([0xA8, 0xAA, 0xAB] : List Byte), F2RREdges op := by decide
theorem witness_NotStep : F1REdges 0x69 := by decide
theorem witness_ShiftStep : (∀ op ∈ ([0xAC, 0xAD] : List Byte), F2RREdges op) ∧
    ((here 0 [0xAC, 0, 1] [(1, 8)]).reg 1).toNat ≥ 8 := by decide
theorem witness_CmpStep : F2RREdges 0xA7 ∧
    ((here 252 [0xA7, 0, 7] []).reg 0).toNat < ((here 252 [0xA7, 0, 7] []).reg 7).toNat ∧
    ((here 252 [0xA7, 7, 0] []).reg 7).toNat > ((here 252 [0xA7, 7, 0] []).reg 0).toNat ∧
    ((here 252 [0xA7, 0, 1] []).reg 0).toNat = ((here 252 [0xA7, 0, 1] []).reg 1).toNat := by decide
theorem witness_CallStep : F1REdges 0x50 ∧ (here 253 [0x50, 0] [(7, 0)]).reg 7 = 0 ∧
    (here 253 [0x50, 0] [(7, 1)]).reg 7 ≠ 0 := by
  decide
theorem witness_RetStep : ((here 255 [0x11] [(7, 255)]).At 0x11 ∧ (here 255 [0x11] [(7, 255)]).reg 7 = 255) ∧
    (let s := here 255 [0x11] [(7, 254)]; s.At 0x11 ∧ s.reg 7 ≠ 255) := by decide
theorem witness_JmpStep : F1REdges 0x54 := by decide
theorem witness_BranchStep : F1REdges 0x55 ∧ F1REdges 0x56 ∧
    ((at_ 254 [0x55, 7] [] [] 0b001).fl.getLsbD 0 = true ∧ (at_ 254 [0x55, 7] [] [] 0b110).fl.getLsbD 0 ≠ true) ∧
    ((at_ 254 [0x56, 7] [] [] 0b110).fl.getLsbD 0 = false ∧
      (at_ 254 [0x56, 7] [] [] 0b001).fl.getLsbD 0 ≠ false) := by decide
theorem witness_HltStep : (here 255 [0x01] []).At 0x01 ∧ (here 0 [0x01] []).At 0x01 := by decide

/-! Completions: the last place each is claimed for. -/

theorem witness_HltLdiPrnNotComplete : (7 : Byte).toNat = (7 : Reg).val ∧
    (here 252 [] []).pc.toNat ≤ 252 ∧ (here 253 [] []).pc.toNat ≤ 253 := by decide
theorem witness_PushPopComplete : (7 : Byte).toNat = (7 : Reg).val ∧ (0 : Byte).toNat = (0 : Reg).val ∧
    (0 : Reg) ≠ 7 ∧
    (here 253 [] [(7, 1)]).pc.toNat ≤ 253 ∧ (here 253 [] [(7, 1)]).reg 7 ≠ 0 ∧ (here 253 [] [(7, 254)]).reg 7 ≠ 255 ∧
    (here 253 [] []).mem.read ((here 253 [] []).reg 7).toNat ≠ 255 := by decide
theorem witness_BinaryAluComplete : (0 : Byte).toNat = (0 : Reg).val ∧ (7 : Byte).toNat = (7 : Reg).val ∧
    (here 252 [] []).pc.toNat ≤ 252 := by decide
theorem witness_DivModCmpComplete : (0 : Byte).toNat = (0 : Reg).val ∧ (7 : Byte).toNat = (7 : Reg).val ∧
    (here 252 [] [(7, 1)]).pc.toNat ≤ 252 ∧ (here 252 [] [(7, 1)]).reg 7 ≠ 0 := by decide
theorem witness_ControlFlowCompletes : (7 : Byte).toNat = (7 : Reg).val ∧
    ((here 253 [] [(7, 1)]).pc.toNat ≤ 253 ∧ (here 253 [] [(7, 1)]).reg 7 ≠ 0) ∧
      (here 255 [] [(7, 254)]).reg 7 ≠ 255 ∧
    (at_ 253 [] [] [] 0b001).fl.getLsbD 0 = true ∧ (at_ 253 [] [] [] 0b110).fl.getLsbD 0 = false := by decide

/-! Frames: a state in which the form completes and one in which it faults. -/

theorem witness_RegisterDestinationFrame :
    (∃ t, exec (.div 0 7) (here 252 [] []) = .next t ∧ t.runState = .running) ∧
    (∃ t, exec (.div 0 1) (here 252 [] []) = .next t ∧ t.runState = .faulted) :=
  ⟨⟨_, rfl, rfl⟩, ⟨_, rfl, rfl⟩⟩
theorem witness_NoDestinationFrame :
    (∃ t, exec (.cmp 0 7) (here 252 [] []) = .next t ∧ t.runState = .running) ∧
    (∃ t, exec .hlt (here 255 [] []) = .next t ∧ t.runState = .halted) ∧
    (∃ t, exec (.jne 0) (here 254 [] []) = .next t ∧ t.runState = .faulted) :=
  ⟨⟨_, rfl, rfl⟩, ⟨_, rfl, rfl⟩, ⟨_, rfl, rfl⟩⟩
theorem witness_StoringFrame :
    (∃ t, exec (.push 7) (here 253 [] []) = .next t ∧ t.runState = .running) ∧
    (∃ t, exec (.call 6) (here 253 [] []) = .next t ∧ t.runState = .running) ∧
    (∃ t, exec (.call 6) (here 254 [] []) = .next t ∧ t.runState = .faulted) :=
  ⟨⟨_, rfl, rfl⟩, ⟨_, rfl, rfl⟩, ⟨_, rfl, rfl⟩⟩
theorem witness_PoppingFrame :
    (∃ t, exec (.pop 7) (here 253 [] []) = .next t ∧ t.runState = .running) ∧
    (∃ t, exec .ret (here 255 [] []) = .next t ∧ t.runState = .running) ∧
    (∃ t, exec .ret (here 255 [] [(7, 255)]) = .next t ∧ t.runState = .faulted) :=
  ⟨⟨_, rfl, rfl⟩, ⟨_, rfl, rfl⟩, ⟨_, rfl, rfl⟩⟩

/-! Laws. -/

theorem witness_PushesThenPopsRestoreRegisters :
    let s := here 243 [] [(7, 3)]
    ([7, 0, 7] : List Reg).length ≤ (s.reg 7).toNat ∧ s.pc.toNat + 4 * ([7, 0, 7] : List Reg).length ≤ 255 := by
  decide
theorem witness_CallThenRetReturns :
    let s := at_ 253 [0x50, 0x01] [(1, 0x0C), (7, 1)] [(0x0C, 0x11)] flagE
    s.At 0x50 ∧ (s.byteAt 1).toNat ≤ 7 ∧ s.pc.toNat ≤ 253 ∧ s.reg 7 ≠ 0 ∧ step s = .next (after s) ∧
    (after s).byteAt 0 = 0x11 :=
  ⟨by decide, by decide, by decide, by decide, step_after _, by decide⟩
theorem witness_SameRegisterResults :
    let s := here 252 [] [(0, 7)]
    (0 : Byte).toNat = (0 : Reg).val ∧ s.pc.toNat ≤ 252 ∧ 7 = (s.reg 0).toNat ∧ 7 ≠ 0 ∧ 0 = (s.reg 1).toNat := by
  decide
theorem witness_QuotientAndRemainderFit :
    let s := here 252 [] [(0, 255), (1, 1)]
    (0 : Byte).toNat = (0 : Reg).val ∧ (1 : Byte).toNat = (1 : Reg).val ∧ s.pc.toNat ≤ 252 ∧ s.reg 1 ≠ 0 := by decide
theorem witness_AluUndoLaws :
    let s := here 249 [] [(0, 255), (1, 7)]
    (0 : Byte).toNat = (0 : Reg).val ∧ (1 : Byte).toNat = (1 : Reg).val ∧ (0 : Reg) ≠ 1 ∧ s.pc.toNat ≤ 249 ∧
    (s.reg 1).toNat < 8 := by decide

end Sys2Proof.Tests
end

section
/-! PROOFS. The state family (10_state.md): what a step leaves in each part of the state, and the invariant. -/

namespace Sys2Proof.Machine

/-! ## Opcodes and their instructions (30_encoding.md R76) -/

theorem opcodeByte_injective {o p : Opcode} (h : opcodeByte o = opcodeByte p) : o = p :=
  Option.some.inj ((decodeOpcode_opcodeByte o).symm.trans (h ▸ decodeOpcode_opcodeByte p))

@[simp] theorem instrOpcode_assemble (o : Opcode) (a b : Byte) : instrOpcode (assemble o a b) = o := by
  cases o <;> rfl

theorem opcode_of_assemble_eq {o : Opcode} {a b : Byte} {i : Instr} (h : assemble o a b = i) : o = instrOpcode i :=
  h ▸ (instrOpcode_assemble o a b).symm

/-- The two transcriptions of the table list the same bytes. -/
theorem opcodeRows_bytes : opcodeRows.map Prod.fst = allOpcodes.map opcodeByte := by decide

/-- A byte the decoder does not know is in no row of the table (30_encoding.md R80). -/
theorem row_ne_of_decodeOpcode_none {b : Byte} (h : decodeOpcode b = none) : ∀ row ∈ opcodeRows, row.1 ≠ b := by
  rintro row hrow rfl
  have hmem : row.1 ∈ allOpcodes.map opcodeByte := opcodeRows_bytes ▸ List.mem_map_of_mem hrow
  obtain ⟨o, -, ho⟩ := List.mem_map.mp hmem
  rw [← ho, decodeOpcode_opcodeByte] at h
  cases h

/-! ## What a step of a RUNNING state answers -/

/-- The decoder's two faults, or the instruction at the PC. -/
theorem step_cases {s t : State} (hr : s.runState = .running) (e : step s = .next t) :
    (decodeOpcode (s.byteAt 0) = none ∧ t = s.fetch.enterFault ⟨.illegalOpcode, (s.byteAt 0).setWidth 9⟩) ∨
    t = s.fetch.enterFault ⟨.operandRange, 256⟩ ∨
    ∃ o, s.byteAt 0 = opcodeByte o ∧ s.pc.toNat + operandCount (opcodeByte o) ≤ 255 ∧
      exec (assemble o (s.byteAt 1) (s.byteAt 2)) s.fetch = .next t := by
  cases hd : decodeOpcode (s.byteAt 0) with
  | none => exact .inl ⟨rfl, (Host.Outcome.next.inj ((step_of_illegal hr hd).symm.trans e)).symm⟩
  | some o =>
    have ho := eq_opcodeByte_of_decodeOpcode hd
    by_cases hn : s.pc.toNat + operandCount (opcodeByte o) ≤ 255
    · exact .inr (.inr ⟨o, ho, hn, (step_of_opcode hr ho hn).symm.trans e⟩)
    · exact .inr (.inl (Host.Outcome.next.inj ((step_of_short hr ho (by omega)).symm.trans e)).symm)

/-- The completed effect of the instruction at the PC, or a fault entry from the fetched state. -/
theorem step_inv {s t : State} (hr : s.runState = .running) (e : step s = .next t) :
    (∃ o, s.byteAt 0 = opcodeByte o ∧ Effect s.fetch (assemble o (s.byteAt 1) (s.byteAt 2)) t) ∨
    ∃ r, t = s.fetch.enterFault r := by
  obtain ⟨-, rfl⟩ | rfl | ⟨o, ho, -, e⟩ := step_cases hr e
  · exact .inr ⟨_, rfl⟩
  · exact .inr ⟨_, rfl⟩
  · exact (exec_inv e).imp_left fun h => ⟨o, ho, h⟩

theorem step_of_running {s : State} (hr : s.runState = .running) : step s = runInstruction s := by
  simp only [step, hr]

/-- A step outside RUNNING answers the state itself (40_cycle.md R106). -/
theorem step_of_not_running {s : State} (hr : s.runState ≠ .running) : step s = .next s := by
  cases h : s.runState <;> simp_all [step]

/-! ## What a completed effect leaves, field by field -/

namespace Effect

variable {s t : State} {i : Instr}

theorem fault_eq (h : Effect s i t) : t.fault = s.fault := by
  cases h <;> rfl

/-- Only HLT moves RUN_STATE, and it changes nothing else (40_cycle.md R98). -/
theorem halt_or_runState (h : Effect s i t) : (i = .hlt ∧ t = s.halt) ∨ t.runState = s.runState := by
  cases h
  case hlt => exact .inl ⟨rfl, rfl⟩
  all_goals exact .inr rfl

/-- No effect ends in FAULTED unless it began there. -/
theorem runState_ne_faulted (h : Effect s i t) (hs : s.runState ≠ .faulted) : t.runState ≠ .faulted := by
  obtain ⟨-, rfl⟩ | hr := h.halt_or_runState
  · simp
  · rwa [hr]

/-- Only fetch writes IR and the operand latches (10_state.md R32, R33). -/
theorem latches_kept (h : Effect s i t) : LatchesKept s t := by
  cases h <;> exact ⟨rfl, rfl, rfl⟩

/-- Only CMP writes FL (10_state.md R28). -/
theorem fl_cases (h : Effect s i t) :
    (∃ ra rb a b, i = .cmp ra rb ∧ t.fl = cmpFlags (s.reg a) (s.reg b)) ∨
    ((∀ ra rb, i ≠ .cmp ra rb) ∧ t.fl = s.fl) := by
  cases h
  case cmp ra rb p a b _ _ _ => exact .inl ⟨ra, rb, a, b, rfl, rfl⟩
  all_goals exact .inr ⟨nofun, rfl⟩

/-- Only PRN appends to OUT (10_state.md R36). -/
theorem out_cases (h : Effect s i t) :
    (∃ (ra : Byte) (a : Reg), i = .prn ra ∧ ra.toNat = a.val ∧ t.out = s.out ++ [s.reg a]) ∨
    ((∀ ra, i ≠ .prn ra) ∧ t.out = s.out) := by
  cases h
  case prn ra p a ha _ => exact .inl ⟨ra, a, rfl, ha, rfl⟩
  all_goals exact .inr ⟨nofun, rfl⟩

/-- An effect stores at most one byte, at an 8-bit address. -/
theorem mem_cases (h : Effect s i t) : t.mem = s.mem ∨ ∃ a v : Byte, t.mem = s.mem.write a.toNat v := by
  cases h
  case push | call => exact .inr ⟨_, _, rfl⟩
  all_goals exact .inl rfl

theorem mem_wf (h : Effect s i t) (hm : s.mem.wf) : t.mem.wf := by
  obtain e | ⟨a, v, e⟩ := h.mem_cases
  · rwa [e]
  · rw [e]
    exact Memory.wf_write hm a.isLt v

/-- The forms without a destination write no register and no cell. -/
theorem regs_mem_of_noDestination {ra rb : Byte} (h : Effect s i t)
    (hi : i ∈ [Instr.hlt, .prn ra, .cmp ra rb, .jmp ra, .jeq ra, .jne ra]) : t.regs = s.regs ∧ t.mem = s.mem := by
  simp only [List.mem_cons, List.not_mem_nil, or_false] at hi
  obtain rfl | rfl | rfl | rfl | rfl | rfl := hi <;> cases h <;> exact ⟨rfl, rfl⟩

end Effect

/-! ## Single fields over a step or an instruction -/

/-- RUN_STATE over a step: kept, or HALTED at a HLT byte, or FAULTED (10_state.md R34). -/
theorem step_runState {s t : State} (e : step s = .next t) :
    t.runState = s.runState ∨ (s.runState = .running ∧ t.runState = .halted ∧ s.byteAt 0 = 0x01) ∨
    (s.runState = .running ∧ t.runState = .faulted) := by
  by_cases hr : s.runState = .running
  · obtain ⟨o, ho, h⟩ | ⟨r, rfl⟩ := step_inv hr e
    · obtain ⟨hi, rfl⟩ | hrun := h.halt_or_runState
      · exact .inr (.inl ⟨hr, rfl, ho.trans (congrArg opcodeByte (opcode_of_assemble_eq hi))⟩)
      · exact .inl hrun
    · exact .inr (.inr ⟨hr, rfl⟩)
  · exact .inl (Host.Outcome.next.inj ((step_of_not_running hr).symm.trans e) ▸ rfl)

/-- Whatever `exec` answers, only CMP writes FL. -/
theorem exec_fl {i : Instr} {s t : State} (e : exec i s = .next t) (hi : ∀ ra rb, i ≠ .cmp ra rb) : t.fl = s.fl := by
  obtain h | ⟨r, rfl⟩ := exec_inv e
  · obtain ⟨ra, rb, -, -, rfl, -⟩ | ⟨-, hfl⟩ := h.fl_cases
    · exact absurd rfl (hi ra rb)
    · exact hfl
  · rfl

/-- A comparison sets exactly one of L, G and E (10_state.md R29). -/
theorem cmpFlags_oneHot (x y : Byte) : cmpFlags x y = flagL ∨ cmpFlags x y = flagG ∨ cmpFlags x y = flagE := by
  rw [cmpFlags]
  split
  · exact .inl rfl
  · split
    · exact .inr (.inl rfl)
    · exact .inr (.inr rfl)

/-- Taking a fault is what the statements call a taken fault (60_exceptions.md R182). -/
theorem faultTaken_enterFault (s : State) (r : Raise) :
    FaultTaken s (s.enterFault r) s.ir r.cause r.info.toNat :=
  ⟨rfl, rfl, rfl, rfl, rfl, rfl, rfl, rfl, rfl, rfl⟩

/-! ## The host's inputs (70_reset_and_hazards.md R212, R213) -/

theorem portLoad_cases (a v : Byte) (s : State) : portLoad a v s = s.store a v ∨ portLoad a v s = s := by
  rw [portLoad]
  split
  · exact .inl rfl
  all_goals exact .inr rfl

@[simp] theorem portLoad_runState (a v : Byte) (s : State) : (portLoad a v s).runState = s.runState := by
  obtain h | h := portLoad_cases a v s <;> rw [h]
  rfl

@[simp] theorem portLoad_out (a v : Byte) (s : State) : (portLoad a v s).out = s.out := by
  obtain h | h := portLoad_cases a v s <;> rw [h]
  rfl

/-- START only moves RUN_STATE, from IDLE to RUNNING. -/
theorem portStart_cases (s : State) :
    (s.runState = .idle ∧ portStart s = { s with runState := .running }) ∨ portStart s = s := by
  rw [portStart]
  split
  · exact .inl ⟨‹_›, rfl⟩
  all_goals exact .inr rfl

@[simp] theorem portStart_out (s : State) : (portStart s).out = s.out := by
  obtain ⟨-, h⟩ | h := portStart_cases s <;> rw [h]

/-! ## Two runs that differ in FL, or in the latches (10_state.md R28, R33) -/

/-- Equal but for FL, which is still `f` in the one and `g` in the other, or equal too. -/
def SameButFl (f g : BitVec 3) (s u : State) : Prop :=
  { u with fl := s.fl } = s ∧ ((s.fl = f ∧ u.fl = g) ∨ u.fl = s.fl)

theorem sameButFl_kept (f g : BitVec 3) : Kept (SameButFl f g) where
  reg h r := (congrArg (State.reg · r) h.1 :).symm
  pc h := (congrArg State.pc h.1 :).symm
  setReg h r v := ⟨congrArg (State.setReg · r v) h.1, h.2⟩
  setPc h a := ⟨congrArg (State.setPc · a) h.1, h.2⟩
  setFl h f := ⟨(congrArg (State.setFl · f) h.1 :), .inr rfl⟩
  emit h v := ⟨congrArg (State.emit · v) h.1, h.2⟩
  store h a v := ⟨congrArg (State.store · a v) h.1, h.2⟩
  halt h := ⟨congrArg State.halt h.1, h.2⟩
  enterFault h r := ⟨congrArg (State.enterFault · r) h.1, h.2⟩

/-- Equal but for the operand latches. -/
def SameButLatches (s u : State) : Prop := { u with op1 := s.op1, op2 := s.op2 } = s

theorem sameButLatches_kept : Kept SameButLatches where
  reg h r := (congrArg (State.reg · r) h :).symm
  pc h := (congrArg State.pc h :).symm
  setReg h r v := congrArg (State.setReg · r v) h
  setPc h a := congrArg (State.setPc · a) h
  setFl h f := congrArg (State.setFl · f) h
  emit h v := congrArg (State.emit · v) h
  store h a v := congrArg (State.store · a v) h
  halt h := congrArg State.halt h
  enterFault h r := congrArg (State.enterFault · r) h

/-- Two states that fetch the same bytes into related states run to related states. -/
theorem runInstruction_same {R : State → State → Prop} (k : Kept R) {s u : State} (h : R s.fetch u.fetch)
    (hb : u.opcodeAtPc = s.opcodeAtPc) (ho : u.operandsAtPc = s.operandsAtPc) (hf : s.flE = u.flE)
    (hl : s.load s.sp = u.load u.sp) : BothNext R (runInstruction s) (runInstruction u) := by
  have hpc : s.pc = u.pc := (k.pc h :)
  unfold runInstruction
  rw [hb, ho, hpc]
  split
  · exact commit_same k h (.error _)
  · exact exec_same k h _ (fun _ => hf) (fun _ => hl)

/-! ## What the stack primitives and CALL raise (41_register_stack.md R116, R117; 43_control_flow.md R161) -/

theorem push_error {i : Reg} {s : State} {r : Raise} (e : push i s = .error r) :
    s.reg 7 = 0 ∧ r = ⟨.stackPushRange, 0⟩ := by
  by_cases hz : s.reg 7 = 0
  · exact ⟨hz, (Except.error.inj ((push_of_zero hz).symm.trans e)).symm⟩
  · exact absurd ((push_of_ne hz).symm.trans e) nofun

/-- A push that completes keeps the PC. -/
theorem push_pc {i : Reg} {s t : State} (e : push i s = .ok t) : t.pc = s.pc := by
  obtain ⟨-, rfl⟩ := push_inv e
  rfl

theorem pop_error {i : Reg} {s : State} {r : Raise} (e : pop i s = .error r) : r = ⟨.stackPopRange, 255⟩ := by
  rw [pop] at e
  split at e
  · exact (Except.error.inj e).symm
  · cases e

/-- A pop that completes keeps the PC. -/
theorem pop_pc {i : Reg} {s t : State} (e : pop i s = .ok t) : t.pc = s.pc := by
  obtain ⟨v, -, -, rfl⟩ := pop_inv e
  rfl

theorem call_error {a : Reg} {s : State} {r : Raise} (e : call a s = .error r) :
    (s.pc.toNat + 2 > 255 ∧ r = ⟨.pcRange, BitVec.ofNat 9 (s.pc.toNat + 2)⟩) ∨
    (s.reg 7 = 0 ∧ r = ⟨.stackPushRange, 0⟩) := by
  rw [call] at e
  by_cases hp : s.pc.toNat + 2 > 255
  · rw [pcOrRange_of_gt hp] at e
    exact .inl ⟨hp, (Except.error.inj e).symm⟩
  rw [pcOrRange_of_le (by omega)] at e
  simp only at e
  split at e
  · rename_i hpush
    obtain ⟨hz, rfl⟩ := push_error hpush
    exact .inr ⟨by simpa [State.reg_setReg, linkReg] using hz, (Except.error.inj e).symm⟩
  · cases e

/-! ## The fault record fits the fault (60_exceptions.md R183) -/

/-- A result a handler may have from `s`: it completes outside FAULTED, or its raise makes a record that fits. -/
inductive ResultFits (s : State) : Result → Prop
  | ok {t : State} : t.runState ≠ .faulted → ResultFits s (.ok t)
  | error {r : Raise} : (s.enterFault r).RecordFits → ResultFits s (.error r)

/-- If the outcome is a FAULTED state, its record fits. -/
def OutcomeFits (x : Host.Outcome State Fault Refusal) : Prop :=
  ∀ t, x = .next t → t.runState = .faulted → t.RecordFits

section

variable {s : State}

theorem commit_fits {h : Result} (hf : ResultFits s h) : OutcomeFits (commit s h) := by
  rintro t e ht
  cases hf with
  | ok hn => exact absurd (Host.Outcome.next.inj e ▸ ht) hn
  | error hr => exact Host.Outcome.next.inj e ▸ hr

/-- A byte above 7 is the FAULT_INFO of REGISTER_INDEX. -/
theorem registerIndex_fits {b : Byte} (hb : b.toNat > 7) :
    (s.enterFault ⟨.registerIndex, b.setWidth 9⟩).RecordFits := by
  have := b.isLt
  simp only [State.RecordFits, State.enterFault_fault, BitVec.toNat_setWidth]
  omega

theorem formF1R_fits (ra : Byte) {h : Reg → State → Result} (hf : ∀ a, ResultFits s (h a s)) :
    OutcomeFits (formF1R ra h s) := by
  obtain ⟨a, ha⟩ | ha := exists_reg_or_gt ra
  · exact formF1R_of_eq ha h ▸ commit_fits (hf a)
  · exact formF1R_of_gt ha h ▸ commit_fits (.error (registerIndex_fits ha))

theorem formF2RI_fits (ra imm : Byte) {h : Reg → Byte → State → Result} (hf : ∀ a, ResultFits s (h a imm s)) :
    OutcomeFits (formF2RI ra imm h s) := by
  obtain ⟨a, ha⟩ | ha := exists_reg_or_gt ra
  · exact formF2RI_of_eq ha h ▸ commit_fits (hf a)
  · exact formF2RI_of_gt ha h ▸ commit_fits (.error (registerIndex_fits ha))

theorem formF2RR_fits (ra rb : Byte) {h : Reg → Reg → State → Result} (hf : ∀ a b, ResultFits s (h a b s)) :
    OutcomeFits (formF2RR ra rb h s) := by
  obtain ⟨a, ha⟩ | ha := exists_reg_or_gt ra
  · obtain ⟨b, hb⟩ | hb := exists_reg_or_gt rb
    · exact formF2RR_of_eq ha hb h ▸ commit_fits (hf a b)
    · exact formF2RR_of_eq_gt ha hb h ▸ commit_fits (.error (registerIndex_fits hb))
  · exact formF2RR_of_gt ha h ▸ commit_fits (.error (registerIndex_fits ha))

/-- PC_RANGE reports 256 where the instruction itself lies inside memory. -/
theorem pcRange_fits {n : Nat} (h : n = 256) : (s.enterFault ⟨.pcRange, BitVec.ofNat 9 n⟩).RecordFits := by
  subst h
  rfl

/-- An advance from a state `u` that the handler reached without moving the PC. -/
theorem advance_fits {n : Nat} {u : State} (hu : u.runState ≠ .faulted) (hpc : u.pc = s.pc)
    (hn : s.pc.toNat + n ≤ 255) : ResultFits s (advance n u) := by
  obtain ⟨a, -, e⟩ | ⟨hgt, e⟩ := advance_cases n u
  · exact e ▸ .ok hu
  · rw [e]
    rw [hpc] at hgt ⊢
    exact .error (pcRange_fits (by omega))

/-- The sequential advance after a handler that keeps the PC. -/
theorem thenAdvance_fits {n : Nat} {h : Result} (hf : ResultFits s h) (hpc : ∀ u, h = .ok u → u.pc = s.pc)
    (hn : s.pc.toNat + n ≤ 255) : ResultFits s (thenAdvance n h) := by
  cases hf with
  | ok hu => exact advance_fits hu (hpc _ rfl) hn
  | error hr => exact .error hr

variable (hs : s.runState ≠ .faulted)
include hs

theorem aluWrite_fits (f : Byte → Byte → Byte) (hn : s.pc.toNat + 2 ≤ 255) (a b : Reg) :
    ResultFits s (aluWrite f a b s) := advance_fits (by exact hs) rfl hn

theorem aluDivide_fits (f : Byte → Byte → Byte) (hn : s.pc.toNat + 2 ≤ 255) (a b : Reg) :
    ResultFits s (aluDivide f a b s) := by
  by_cases hb : s.reg b = 0
  · have hinfo : (BitVec.ofNat 9 b.val).toNat = b.val := by
      have := b.isLt
      simp only [BitVec.toNat_ofNat]
      omega
    rw [aluDivide, if_pos hb]
    exact .error ⟨b, hinfo, hb⟩
  · rw [aluDivide, if_neg hb]
    exact aluWrite_fits hs f hn a b

theorem branch_fits (taken : Bool) (hn : s.pc.toNat + 1 ≤ 255) (a : Reg) : ResultFits s (branch taken a s) := by
  cases taken with
  | true => exact .ok hs
  | false => exact advance_fits hs rfl hn

theorem push_fits (a : Reg) : ResultFits s (push a s) := by
  cases h : push a s with
  | ok t =>
    obtain ⟨-, rfl⟩ := push_inv h
    exact .ok hs
  | error r =>
    obtain ⟨hz, rfl⟩ := push_error h
    exact .error ⟨rfl, hz⟩

theorem pop_fits (a : Reg) : ResultFits s (pop a s) := by
  cases h : pop a s with
  | ok t =>
    obtain ⟨v, -, -, rfl⟩ := pop_inv h
    exact .ok hs
  | error r =>
    obtain rfl := pop_error h
    exact .error rfl

theorem ret_fits : ResultFits s (ret s) := by
  have hf := pop_fits hs linkReg
  rw [ret]
  generalize pop linkReg s = h at hf ⊢
  cases hf with
  | ok ht => exact .ok ht
  | error hr => exact .error hr

theorem call_fits (hn : s.pc.toNat + 1 ≤ 255) (a : Reg) : ResultFits s (call a s) := by
  cases h : call a s with
  | ok t =>
    obtain ⟨-, -, rfl⟩ := call_inv h
    exact .ok hs
  | error r =>
    obtain ⟨hp, rfl⟩ | ⟨hz, rfl⟩ := call_error h
    · exact .error (pcRange_fits (by omega))
    · exact .error ⟨rfl, hz⟩

/-- An instruction whose bytes lie inside memory faults only with a record that fits its cause. -/
theorem exec_fits (i : Instr) (hn : s.pc.toNat + (instrOperands i).length ≤ 255) : OutcomeFits (exec i s) := by
  cases i with
  | hlt => exact commit_fits (s := s) (h := .ok s.halt) (.ok (by simp))
  | ldi ra imm =>
    rw [exec, execLdi]
    exact formF2RI_fits ra imm fun a => advance_fits (by exact hs) rfl hn
  | prn ra =>
    rw [exec, execPrn]
    exact formF1R_fits ra fun a => advance_fits (by exact hs) rfl hn
  | push ra =>
    rw [exec, execPush]
    exact formF1R_fits ra fun a => thenAdvance_fits (push_fits hs a) (fun _ => push_pc) hn
  | pop ra =>
    rw [exec, execPop]
    exact formF1R_fits ra fun a => thenAdvance_fits (pop_fits hs a) (fun _ => pop_pc) hn
  | add ra rb => exact formF2RR_fits ra rb (aluWrite_fits hs _ hn)
  | sub ra rb => exact formF2RR_fits ra rb (aluWrite_fits hs _ hn)
  | mul ra rb => exact formF2RR_fits ra rb (aluWrite_fits hs _ hn)
  | div ra rb => exact formF2RR_fits ra rb (aluDivide_fits hs _ hn)
  | mod ra rb => exact formF2RR_fits ra rb (aluDivide_fits hs _ hn)
  | and ra rb => exact formF2RR_fits ra rb (aluWrite_fits hs _ hn)
  | or ra rb => exact formF2RR_fits ra rb (aluWrite_fits hs _ hn)
  | xor ra rb => exact formF2RR_fits ra rb (aluWrite_fits hs _ hn)
  | not ra =>
    rw [exec, execNot]
    exact formF1R_fits ra fun a => advance_fits (by exact hs) rfl hn
  | shl ra rb => exact formF2RR_fits ra rb (aluWrite_fits hs _ hn)
  | shr ra rb => exact formF2RR_fits ra rb (aluWrite_fits hs _ hn)
  | cmp ra rb =>
    rw [exec, execCmp]
    exact formF2RR_fits ra rb fun a b => advance_fits (by exact hs) rfl hn
  | call ra => exact formF1R_fits ra (call_fits hs hn)
  | ret => exact commit_fits (ret_fits hs)
  | jmp ra =>
    rw [exec, execJmp]
    exact formF1R_fits ra fun a => .ok hs
  | jeq ra =>
    rw [exec, execJeq]
    exact formF1R_fits ra (branch_fits hs _ hn)
  | jne ra =>
    rw [exec, execJne]
    exact formF1R_fits ra (branch_fits hs _ hn)

end

/-- A step of a RUNNING state that faults leaves a record that fits its cause. -/
theorem step_fits {s : State} (hr : s.runState = .running) : OutcomeFits (step s) := by
  intro t e ht
  obtain ⟨hd, rfl⟩ | rfl | ⟨o, -, hn, e⟩ := step_cases hr e
  · refine ⟨?_, row_ne_of_decodeOpcode_none hd⟩
    have := (s.byteAt 0).isLt
    simp only [State.enterFault_fault, BitVec.toNat_setWidth]
    exact Nat.mod_eq_of_lt (by omega)
  · rfl
  · refine exec_fits (by simp [hr]) _ ?_ t e ht
    rwa [← operandCount_instr, instrOpcode_assemble]

/-! ## The obligations of the state family -/

/-- Settles O16: a completed effect stores at most one byte and halts at HLT only; a fault entry's record fits. -/
theorem stepKeepsTheInvariant : Obligations.StepKeepsTheInvariant := by
  unfold Obligations.StepKeepsTheInvariant
  intro s t hs e
  by_cases hr : s.runState = .running
  swap
  · exact Host.Outcome.next.inj ((step_of_not_running hr).symm.trans e) ▸ hs
  have hz : s.fault = .zero := hs.unwritten (by simp [hr])
  obtain ⟨o, ho, h⟩ | ⟨r, rfl⟩ := step_inv hr e
  · have hnf : t.runState ≠ .faulted := h.runState_ne_faulted (by simp [hr])
    refine ⟨h.mem_wf hs.memory, fun hh => ?_, fun hf => absurd hf hnf, fun _ => h.fault_eq.trans hz⟩
    obtain ⟨hi, rfl⟩ | hrun := h.halt_or_runState
    · have hop : o = .hlt := opcode_of_assemble_eq hi
      exact ho.trans (congrArg opcodeByte hop)
    · exact absurd (hrun.symm.trans hh) (by simp [hr])
  · exact ⟨hs.memory, nofun, fun hf => ⟨rfl, rfl, step_fits hr _ e hf⟩, fun hn => absurd rfl hn⟩

/-- Settles O17: no reset state is HALTED or FAULTED, and its record is zero. -/
theorem resetMeetsTheInvariant : Obligations.ResetMeetsTheInvariant := by
  unfold Obligations.ResetMeetsTheInvariant
  have hreset (p : ResetParams) (mem : Memory) (hm : mem.wf) : (State.resetWith p mem).Inv :=
    ⟨hm, nofun, nofun, fun _ => rfl⟩
  exact ⟨hreset, hreset _ _ Memory.wf_reset⟩

/-- Settles O14: RESET, LOAD and START by their definitions, STEP by what a completed effect does to RUN_STATE. -/
theorem runStateTransitions : Obligations.RunStateTransitions := by
  unfold Obligations.RunStateTransitions
  refine ⟨fun ev s t e => ?_, fun s hs => step_of_not_running ?_, rfl, rfl, rfl, rfl⟩
  · cases ev with
    | reset p =>
      obtain rfl := Host.Outcome.next.inj e
      exact .inr (.inr (.inr (.inr ⟨⟨p, rfl⟩, rfl⟩)))
    | load a v =>
      obtain rfl := Host.Outcome.next.inj e
      exact .inl (portLoad_runState a v s)
    | start =>
      obtain rfl := Host.Outcome.next.inj e
      obtain ⟨hi, h⟩ | h := portStart_cases s
      · exact .inr (.inl ⟨rfl, hi, by rw [h]⟩)
      · exact .inl (by rw [h])
    | step =>
      obtain h | ⟨hr, hh, hb⟩ | ⟨hr, hf⟩ := step_runState e
      · exact .inl h
      · exact .inr (.inr (.inl ⟨rfl, hr, hh, hb⟩))
      · exact .inr (.inr (.inr (.inl ⟨rfl, hr, hf⟩)))
  · obtain h | h := hs <;> simp [h]

/-- Settles O19: a completed CMP sets the flags of its comparison, and every other answer keeps FL. -/
theorem flagsStayOneHot : Obligations.FlagsStayOneHot := by
  unfold Obligations.FlagsStayOneHot
  intro s t hr e hs
  obtain ⟨o, ho, h⟩ | ⟨r, rfl⟩ := step_inv hr e
  · obtain ⟨-, -, a, b, -, hc⟩ | ⟨hne, hk⟩ := h.fl_cases
    · exact hc ▸ cmpFlags_oneHot _ _
    · obtain ⟨hb, -⟩ | hfl := hs
      · obtain rfl : o = .cmp := opcodeByte_injective (ho.symm.trans hb)
        exact absurd rfl (hne _ _)
      · exact hk ▸ hfl
  · obtain ⟨-, ht⟩ | hfl := hs
    · cases ht
    · exact hfl

/-- Settles O20: of all answers of a step only a completed PRN changes OUT. -/
theorem onlyPrnAppendsToOut : Obligations.OnlyPrnAppendsToOut := by
  unfold Obligations.OnlyPrnAppendsToOut
  refine ⟨fun s t hr e => ?_, fun s a v => ⟨portLoad_out a v s, portStart_out s, rfl⟩⟩
  obtain ⟨o, ho, h⟩ | ⟨r, rfl⟩ := step_inv hr e
  · have hnf : t.runState ≠ .faulted := h.runState_ne_faulted (by simp [hr])
    obtain ⟨ra, a, hi, ha, hout⟩ | ⟨hne, hout⟩ := h.out_cases
    · obtain rfl : o = .prn := opcode_of_assemble_eq hi
      obtain rfl := Instr.prn.inj hi
      exact ⟨fun _ => ⟨a, ha.symm, hout⟩, fun hn => hn.elim (absurd ho) fun hf => absurd hf hnf⟩
    · refine ⟨fun ⟨hb, _⟩ => ?_, fun _ => hout⟩
      obtain rfl : o = .prn := opcodeByte_injective (ho.symm.trans hb)
      exact absurd rfl (hne _)
  · exact ⟨fun ⟨_, ht⟩ => (nomatch ht), fun _ => rfl⟩

/-- Settles O21: the two runs stay equal but for FL, which both keep or both set alike; only CMP does not keep it. -/
theorem flagsAreReadByBranchesOnly : Obligations.FlagsAreReadByBranchesOnly := by
  unfold Obligations.FlagsAreReadByBranchesOnly
  intro i s f hf
  have hstart : SameButFl s.fl f s { s with fl := f } := ⟨rfl, .inl ⟨rfl, rfl⟩⟩
  obtain ⟨t, u, ht, hu, hsame, hfl⟩ :=
    exec_same (sameButFl_kept s.fl f) hstart i (fun hi => (hf hi).symm) (fun _ => rfl)
  refine ⟨t, u, ht, hu, hsame, ?_⟩
  by_cases hi : ∃ ra rb, i = .cmp ra rb
  · exact hfl.imp_right fun h => ⟨hi, h⟩
  · have hne : ∀ ra rb, i ≠ .cmp ra rb := fun ra rb h => hi ⟨ra, rb, h⟩
    exact .inl ⟨exec_fl ht hne, exec_fl hu hne⟩

/-- Settles O22: fetch loads IR anew in both runs, and no handler reads the latches. -/
theorem latchesCarryNothingOver : Obligations.LatchesCarryNothingOver := by
  unfold Obligations.LatchesCarryNothingOver
  intro s ir op1 op2 hr
  have hfetch : SameButLatches s.fetch { s with ir := ir, op1 := op1, op2 := op2 }.fetch := rfl
  rw [step_of_running hr, step_of_running (s := { s with ir := ir, op1 := op1, op2 := op2 }) hr]
  exact runInstruction_same sameButLatches_kept hfetch rfl rfl rfl rfl

/-- Settles O53: a completed effect field by field, and a fault entry keeps everything. -/
theorem noDestinationFrame : Obligations.NoDestinationFrame := by
  unfold Obligations.NoDestinationFrame
  intro ra rb i hi s t e
  obtain h | ⟨r, rfl⟩ := exec_inv e
  · obtain ⟨hregs, hmem⟩ := h.regs_mem_of_noDestination hi
    refine ⟨hregs, fun _ => by rw [hmem], h.latches_kept, fun hne => ?_, fun hne => ?_, ?_⟩
    · obtain ⟨ra', rb', -, -, rfl, -⟩ | ⟨-, hfl⟩ := h.fl_cases
      · exact absurd (by simpa using hi) hne
      · exact hfl
    · obtain ⟨ra', -, rfl, -, -⟩ | ⟨-, hout⟩ := h.out_cases
      · exact absurd (by simpa using hi) hne
      · exact hout
    · obtain ⟨rfl, rfl⟩ | hrun := h.halt_or_runState
      · exact .inr (.inl ⟨rfl, rfl, rfl, rfl⟩)
      · exact .inl ⟨hrun, h.fault_eq⟩
  · exact ⟨rfl, fun _ => rfl, ⟨rfl, rfl, rfl⟩, fun _ => rfl, fun _ => rfl,
      .inr (.inr ⟨_, _, faultTaken_enterFault s r⟩)⟩

end Sys2Proof.Machine
end

section
/-! PROOFS. The memory family (20_memory.md): which steps write a cell, which cells a step reads, and that fetch sees
the last store. -/

namespace Sys2Proof.Machine

/-! ## The table's operand counts (30_encoding.md R77) -/

/-- Every opcode has a row in the table, with its n. -/
theorem exists_row_of_opcode (o : Opcode) :
    ∃ row ∈ opcodeRows, row.1 = opcodeByte o ∧ row.2.1 = operandCount (opcodeByte o) := by
  cases o <;> decide

/-- Every row of the table is an opcode's, with its n. -/
theorem exists_opcode_of_row :
    ∀ row ∈ opcodeRows, ∃ o ∈ allOpcodes, row.1 = opcodeByte o ∧ row.2.1 = operandCount (opcodeByte o) := by
  decide

/-- What decodes to an instruction begins with the instruction's opcode byte. -/
theorem eq_opcodeByte_of_decode {b : Byte} {following : List Byte} {i : Instr} (h : decode b following = .ok i) :
    b = opcodeByte (instrOpcode i) := by
  rw [decode] at h
  split at h
  · cases h
  · rename_i o ho
    split at h
    · cases h
    · rw [← Except.ok.inj h, instrOpcode_assemble]
      exact eq_opcodeByte_of_decodeOpcode ho

/-! ## Steps of a RUNNING state -/

/-- Every step has a next state. -/
theorem exists_step_next {s : State} (hr : s.runState = .running) : ∃ t, step s = .next t := by
  rw [step_of_running hr, runInstruction]
  split
  · exact commit_next _ _
  · exact exec_next _ _

/-- A step that does not fault has the completed effect of the opcode at the PC. -/
theorem effect_of_step {s t : State} {o : Opcode} (hs : s.At (opcodeByte o)) (e : step s = .next t)
    (ht : t.runState ≠ .faulted) : Effect s.fetch (assemble o (s.byteAt 1) (s.byteAt 2)) t := by
  obtain ⟨p, hp, h⟩ | ⟨r, rfl⟩ := step_inv hs.1 e
  · exact opcodeByte_injective (hs.2.symm.trans hp) ▸ h
  · exact absurd rfl ht

/-- After a step IR and the operand latches hold what its fetch left there (40_cycle.md R97, R101). -/
theorem step_latches {s t : State} (hr : s.runState = .running) (e : step s = .next t) : LatchesKept s.fetch t := by
  obtain ⟨o, -, h⟩ | ⟨r, rfl⟩ := step_inv hr e
  · exact h.latches_kept
  · exact ⟨rfl, rfl, rfl⟩

/-! ## What a step stores (20_memory.md R53) -/

/-- Only PUSH and CALL store, each one byte at SP - 1. -/
theorem Effect.mem_eq_or_stored {s t : State} {i : Instr} (h : Effect s i t) :
    t.mem = s.mem ∨ ((instrOpcode i = .push ∨ instrOpcode i = .call) ∧ s.reg 7 ≠ 0 ∧
      ∃ v, t.mem = s.mem.write (s.reg 7 - 1).toNat v) := by
  cases h
  case push _ hz _ => exact .inr ⟨.inl rfl, hz, _, rfl⟩
  case call _ _ hz => exact .inr ⟨.inr rfl, hz, _, rfl⟩
  all_goals exact .inl rfl

theorem step_mem_eq_or_stored {s t : State} (hr : s.runState = .running) (e : step s = .next t) :
    t.mem = s.mem ∨ ((s.byteAt 0 = 0x45 ∨ s.byteAt 0 = 0x50) ∧ s.reg 7 ≠ 0 ∧
      ∃ v, t.mem = s.mem.write (s.reg 7 - 1).toNat v) := by
  obtain ⟨o, ho, h⟩ | ⟨r, rfl⟩ := step_inv hr e
  · refine h.mem_eq_or_stored.imp_right fun ⟨hop, hz, hv⟩ => ⟨?_, hz, hv⟩
    rw [instrOpcode_assemble] at hop
    exact hop.imp (fun hp => ho.trans (congrArg opcodeByte hp)) fun hc => ho.trans (congrArg opcodeByte hc)
  · exact .inl rfl

/-- A completed PUSH stores its register, or the new SP for SP itself (41_register_stack.md R116). -/
theorem Effect.push_stored {s t : State} {ra : Byte} {a : Reg} (h : Effect s (.push ra) t) (ha : ra.toNat = a.val) :
    t.mem.read (s.reg 7 - 1).toNat = if a = 7 then s.reg 7 - 1 else s.reg a := by
  cases h
  case push b _ _ hb =>
    obtain rfl : b = a := Fin.ext (hb.symm.trans ha)
    exact Memory.read_write_same _ _ _

/-- A completed CALL stores its return address (43_control_flow.md R161). -/
theorem Effect.call_stored {s t : State} {ra : Byte} (h : Effect s (.call ra) t) :
    (t.mem.read (s.reg 7 - 1).toNat).toNat = s.pc.toNat + 2 := by
  cases h
  case call a _ hp _ =>
    simp only [State.setPc_mem, State.store_mem, Memory.read_write_same]
    bv_omega

/-- A PUSH with room on the stack and below the PC's limit completes (41_register_stack.md R121). -/
theorem exec_push_of_ne {s : State} {ra : Byte} {a : Reg} (ha : ra.toNat = a.val) (hz : s.reg 7 ≠ 0)
    (hp : s.pc.toNat + 2 ≤ 255) :
    exec (.push ra) s = .next (((s.setReg 7 (s.reg 7 - 1)).store (s.reg 7 - 1)
      (if a = 7 then s.reg 7 - 1 else s.reg a)).setPc (s.pc + 2)) := by
  simp only [exec, execPush, formF1R_of_eq ha, push_of_ne hz, thenAdvance_ok]
  exact congrArg (commit s) (advance_of_le (n := 1) (by exact hp))

/-! ## What a step reads (20_memory.md R53) -/

/-- The operand bytes a legal opcode reads where they all exist (40_cycle.md R101). -/
theorem operandsAtPc_of_opcode {s : State} {o : Opcode} (ho : s.byteAt 0 = opcodeByte o)
    (hn : s.pc.toNat + operandCount (opcodeByte o) ≤ 255) :
    s.operandsAtPc = (List.range (operandCount (opcodeByte o))).map fun k => s.byteAt (1 + k) := by
  have hop : s.opcodeAtPc = opcodeByte o := ho
  rw [State.operandsAtPc, hop, decodeOpcode_opcodeByte]
  simp only [cellsFrom_of_le s.mem (operandCount (opcodeByte o)) (s.pc.toNat + 1) (by omega), Nat.add_assoc]

theorem fetch_op1 {s : State} {o : Opcode} (ho : s.byteAt 0 = opcodeByte o)
    (hn : s.pc.toNat + operandCount (opcodeByte o) ≤ 255) (h1 : 1 ≤ operandCount (opcodeByte o)) :
    s.fetch.op1 = s.byteAt 1 := by
  simp [State.fetch, operandsAtPc_of_opcode ho hn, List.getElem?_range h1]

theorem fetch_op2 {s : State} {o : Opcode} (ho : s.byteAt 0 = opcodeByte o)
    (hn : s.pc.toNat + operandCount (opcodeByte o) ≤ 255) (h2 : 2 ≤ operandCount (opcodeByte o)) :
    s.fetch.op2 = s.byteAt 2 := by
  simp [State.fetch, operandsAtPc_of_opcode ho hn, List.getElem?_range h2]

theorem cellsFrom_congr {m m' : Memory} {n a : Nat} (h : ∀ k < n, m'.read (a + k) = m.read (a + k)) :
    cellsFrom m' n a = cellsFrom m n a := by
  induction n generalizing a with
  | zero => rfl
  | succ n ih =>
    have hrest : cellsFrom m' n (a + 1) = cellsFrom m n (a + 1) := ih fun k hk => by
      simpa only [Nat.add_assoc, Nat.add_comm 1 k] using h (k + 1) (by omega)
    simp only [cellsFrom, hrest, show m'.read a = m.read a from h 0 (by omega)]

/-- States with one PC fetch the same operands if they agree on the opcode byte and the n bytes it consumes. -/
theorem operandsAtPc_congr {s u : State} (hpc : u.pc = s.pc) (hb : u.byteAt 0 = s.byteAt 0)
    (h : ∀ o, s.byteAt 0 = opcodeByte o → ∀ k, 1 ≤ k → k ≤ operandCount (opcodeByte o) → u.byteAt k = s.byteAt k) :
    u.operandsAtPc = s.operandsAtPc := by
  have hop : u.opcodeAtPc = s.opcodeAtPc := hb
  rw [State.operandsAtPc, State.operandsAtPc, hop, hpc]
  split
  · rfl
  · rename_i o ho
    have hs : s.opcodeAtPc = opcodeByte o := eq_opcodeByte_of_decodeOpcode ho
    refine cellsFrom_congr fun k hk => ?_
    rw [Nat.add_assoc, ← hpc]
    exact (h o hs (1 + k) (by omega) (by rw [← hs]; omega)).trans (by rw [State.byteAt, hpc])

/-- Equal but for the cell `a`. -/
def SameButCell (a : Nat) (s u : State) : Prop := { u with mem := s.mem } = s ∧ MemKeptBut a s u

theorem sameButCell_kept (a : Nat) : Kept (SameButCell a) where
  reg h r := (congrArg (State.reg · r) h.1 :).symm
  pc h := (congrArg State.pc h.1 :).symm
  setReg h r v := ⟨congrArg (State.setReg · r v) h.1, h.2⟩
  setPc h p := ⟨congrArg (State.setPc · p) h.1, h.2⟩
  setFl h f := ⟨congrArg (State.setFl · f) h.1, h.2⟩
  emit h v := ⟨congrArg (State.emit · v) h.1, h.2⟩
  store h p v := ⟨congrArg (State.store · p v) h.1, fun b hb => by
    simp only [State.store_mem, Memory.read_write, h.2 b hb]⟩
  halt h := ⟨congrArg State.halt h.1, h.2⟩
  enterFault h r := ⟨congrArg (State.enterFault · r) h.1, h.2⟩

/-- As `runInstruction_same`, but the popped cell need agree only at a POP or RET byte. -/
theorem runInstruction_same_of_popped {R : State → State → Prop} (k : Kept R) {s u : State} (h : R s.fetch u.fetch)
    (hb : u.opcodeAtPc = s.opcodeAtPc) (ho : u.operandsAtPc = s.operandsAtPc) (hf : s.flE = u.flE)
    (hl : s.byteAt 0 = 0x46 ∨ s.byteAt 0 = 0x11 → s.load s.sp = u.load u.sp) :
    BothNext R (runInstruction s) (runInstruction u) := by
  have hpc : s.pc = u.pc := (k.pc h :)
  unfold runInstruction
  rw [hb, ho, hpc]
  split
  · exact commit_same k h (.error _)
  · rename_i i hi
    have hop : s.byteAt 0 = opcodeByte (instrOpcode i) := eq_opcodeByte_of_decode hi
    refine exec_same k h i (fun _ => hf) fun hpop => hl ?_
    obtain ⟨ra, rfl⟩ | rfl := hpop
    · exact .inl hop
    · exact .inr hop

/-! ## The obligations of the memory family -/

/-- Settles O29: a step keeps memory or is the one store of a PUSH or CALL. -/
theorem onlyPushAndCallWriteMemory : Obligations.OnlyPushAndCallWriteMemory := by
  unfold Obligations.OnlyPushAndCallWriteMemory
  intro s t a hr e hne
  obtain hm | ⟨hb, hz, v, hm⟩ := step_mem_eq_or_stored hr e
  · exact absurd (by rw [hm]) hne
  · refine ⟨hb, hz, ?_⟩
    by_contra ha
    exact hne (by rw [hm, Memory.read_write_other _ _ _ _ ha])

/-- Settles O30: the two runs fetch the same bytes and pop the same byte, so they stay equal but for the cell; what a
step stores is O29's case analysis. -/
theorem memoryIsReachedOnlyAsR53Says : Obligations.MemoryIsReachedOnlyAsR53Says := by
  unfold Obligations.MemoryIsReachedOnlyAsR53Says
  intro s a v hr hpc hops hpop
  have hread : ∀ b, b ≠ a → (s.mem.write a v).read b = s.mem.read b := fun b => Memory.read_write_other _ _ _ _
  have hb : ({ s with mem := s.mem.write a v } : State).byteAt 0 = s.byteAt 0 := hread _ hpc.symm
  have hoperands : ({ s with mem := s.mem.write a v } : State).operandsAtPc = s.operandsAtPc := by
    refine operandsAtPc_congr rfl hb fun o ho k hk hn => hread _ ?_
    obtain ⟨row, hrow, hbyte, hcount⟩ := exists_row_of_opcode o
    exact (hops row hrow (hbyte.trans ho.symm) k hk (hcount ▸ hn)).symm
  have hfetch : SameButCell a s.fetch ({ s with mem := s.mem.write a v } : State).fetch := by
    have hop : ({ s with mem := s.mem.write a v } : State).opcodeAtPc = s.opcodeAtPc := hb
    refine ⟨?_, hread⟩
    rw [State.fetch, State.fetch, hop, hoperands]
    rfl
  obtain ⟨t, u, ht, hu, hsame, hcells⟩ := runInstruction_same_of_popped (sameButCell_kept a) hfetch hb hoperands rfl
    fun h => (hread _ (hpop h).symm).symm
  rw [← step_of_running hr] at ht
  refine ⟨t, u, ht, (step_of_running (s := { s with mem := s.mem.write a v }) hr).trans hu, hsame, hcells, ?_⟩
  obtain hm | ⟨hop, -, w, hm⟩ := step_mem_eq_or_stored hr ht
  · exact ⟨fun _ _ b => by rw [hm], fun b _ => by rw [hm]⟩
  · refine ⟨fun hpush hcall => (hop.elim hpush hcall).elim, fun b hb => ?_⟩
    rw [hm, Memory.read_write_other _ _ _ _ hb]

/-- The byte at SP - 1 after a completed PUSH or CALL is the one the statement calls stored. -/
theorem read_stored {s t : State} {stored : Byte}
    (hs : (s.At 0x45 ∧ (∃ a : Reg, (s.byteAt 1).toNat = a.val ∧ stored = if a = 7 then s.reg 7 - 1 else s.reg a)) ∨
      (s.At 0x50 ∧ stored.toNat = s.pc.toNat + 2))
    (e : step s = .next t) (ht : t.runState = .running) : t.mem.read (s.reg 7 - 1).toNat = stored := by
  have hnf : t.runState ≠ .faulted := by simp [ht]
  obtain ⟨hat, a, ha, rfl⟩ | ⟨hat, hst⟩ := hs
  · exact (effect_of_step (o := .push) hat e hnf).push_stored ha
  · exact BitVec.eq_of_toNat_eq ((effect_of_step (o := .call) hat e hnf).call_stored.trans hst.symm)

/-- A step that fetches the cell at `c` has the cell's byte in IR, op1 or op2, by its distance from the PC
(40_cycle.md R97, R101). -/
theorem step_fetches {t u : State} {c : Nat} (ht : t.runState = .running) (e : step t = .next u) :
    (t.pc.toNat = c → u.ir = t.mem.read c) ∧
    ∀ row ∈ opcodeRows, row.1 = t.byteAt 0 → t.pc.toNat + row.2.1 ≤ 255 →
      (1 ≤ row.2.1 → t.pc.toNat + 1 = c → u.op1 = t.mem.read c) ∧
      (2 ≤ row.2.1 → t.pc.toNat + 2 = c → u.op2 = t.mem.read c) := by
  obtain ⟨hir, hop1, hop2⟩ := step_latches ht e
  refine ⟨fun hc => hc ▸ hir, fun row hrow hb hn => ?_⟩
  obtain ⟨o, -, ho, hcount⟩ := exists_opcode_of_row row hrow
  rw [hcount] at hn ⊢
  have hat : t.byteAt 0 = opcodeByte o := hb.symm.trans ho
  exact ⟨fun h1 hc => hc ▸ hop1.trans (fetch_op1 hat hn h1), fun h2 hc => hc ▸ hop2.trans (fetch_op2 hat hn h2)⟩

/-- Settles O31: the store stands in memory after the step, and the next fetch reads memory. -/
theorem pushedByteIsFetchedNext : Obligations.PushedByteIsFetchedNext := by
  unfold Obligations.PushedByteIsFetchedNext
  refine ⟨fun s a hs ha hpc hsp => ?_, fun s t stored hs e ht => ?_⟩
  · have hz : s.reg 7 ≠ 0 := by bv_omega
    have e := (step_of_opcode (o := .push) hs.1 hs.2 (show s.pc.toNat + 1 ≤ 255 by omega)).trans
      (exec_push_of_ne (s := s.fetch) ha hz (show s.pc.toNat + 2 ≤ 255 by omega))
    obtain ⟨u, hu⟩ := exists_step_next (s := ((s.fetch.setReg 7 (s.reg 7 - 1)).store (s.reg 7 - 1)
      (if a = 7 then s.reg 7 - 1 else s.reg a)).setPc (s.pc + 2)) hs.1
    have hnext : (s.pc + 2).toNat = (s.reg 7 - 1).toNat := by bv_omega
    have hir := (step_fetches (by exact hs.1) hu).1 hnext
    exact ⟨_, u, e, hs.1, hu, hir.trans (read_stored (.inl ⟨hs, a, ha, rfl⟩) e hs.1)⟩
  · obtain ⟨u, hu⟩ := exists_step_next ht
    exact ⟨u, hu, read_stored hs e ht ▸ step_fetches ht hu⟩

end Sys2Proof.Machine
end

section
/-! PROOFS. The encoding family (30_encoding.md): the decoder and the encoder, the table, and the length. -/

namespace Sys2Proof.Machine

/-! ## Operand bytes and the instruction they assemble to (30_encoding.md R73) -/

/-- An opcode with two operand bytes assembles to an instruction that keeps the first n of them. -/
theorem instrOperands_assemble (o : Opcode) (a b : Byte) :
    instrOperands (assemble o a b) = [a, b].take (operandCount (opcodeByte o)) := by
  cases o <;> rfl

/-- An opcode and at least its n operand bytes assemble to an instruction with those operand bytes. -/
theorem instrOperands_assemble_getD {o : Opcode} {l : List Byte} (h : operandCount (opcodeByte o) ≤ l.length) :
    instrOperands (assemble o (l.getD 0 0) (l.getD 1 0)) = l.take (operandCount (opcodeByte o)) := by
  have hn := operandCount_opcodeByte_le o
  rw [instrOperands_assemble]
  generalize operandCount (opcodeByte o) = n at h hn
  match l, n with
  | _, 0 => rfl
  | _ :: _, 1 => rfl
  | _ :: _ :: _, 2 => rfl

/-- Reassembling an instruction from its operand bytes ignores what follows them. -/
theorem assemble_instrOperands_append (i : Instr) (rest : List Byte) :
    assemble (instrOpcode i) ((instrOperands i ++ rest).getD 0 0) ((instrOperands i ++ rest).getD 1 0) = i := by
  cases i <;> rfl

/-! ## The decoder, case by case (30_encoding.md R76, R80) -/

theorem decode_of_decodeOpcode_none {b : Byte} (h : decodeOpcode b = none) (l : List Byte) :
    decode b l = .error (.illegalOpcode b) := by
  rw [decode, h]

theorem decode_opcodeByte (o : Opcode) (l : List Byte) :
    decode (opcodeByte o) l = if l.length < operandCount (opcodeByte o) then .error (.missingByte (l.length + 1))
      else .ok (assemble o (l.getD 0 0) (l.getD 1 0)) := by
  rw [decode, decodeOpcode_opcodeByte]

/-- A byte and what follows decode to `i` exactly when the byte is `i`'s opcode byte and `i`'s operands come first. -/
theorem decode_eq_ok_iff {b : Byte} {l : List Byte} {i : Instr} :
    decode b l = .ok i ↔ b = opcodeByte (instrOpcode i) ∧ instrOperands i <+: l := by
  constructor
  · intro h
    obtain rfl := eq_opcodeByte_of_decode h
    rw [decode_opcodeByte] at h
    split at h
    · cases h
    · rename_i hlen
      have hops := instrOperands_assemble_getD (Nat.le_of_not_lt hlen)
      rw [Except.ok.inj h] at hops
      exact ⟨rfl, hops ▸ List.take_prefix _ _⟩
  · rintro ⟨rfl, rest, rfl⟩
    have hlen : ¬ (instrOperands i ++ rest).length < operandCount (opcodeByte (instrOpcode i)) := by
      simp [operandCount_instr]
    rw [decode_opcodeByte, if_neg hlen, assemble_instrOperands_append]

theorem decodeBytes_cons_eq_ok_iff {b : Byte} {l rest : List Byte} {i : Instr} :
    decodeBytes (b :: l) = .ok (i, rest) ↔ decode b l = .ok i ∧ l.drop (operandCount b) = rest := by
  rw [decodeBytes]
  cases decode b l <;> simp

/-! ## The opcode bytes among all bytes (30_encoding.md R76, R79, R80) -/

/-- The decoder knows a byte exactly when the table lists it. -/
theorem decodeOpcode_isSome (b : Byte) : (decodeOpcode b).isSome = opcodeRows.any fun row => row.1 == b := by
  calc (decodeOpcode b).isSome
      = (allOpcodes.map opcodeByte).any (· == b) := by rw [decodeOpcode, List.isSome_find?, List.any_map]; rfl
    _ = (opcodeRows.map Prod.fst).any (· == b) := by rw [opcodeRows_bytes]
    _ = opcodeRows.any fun row => row.1 == b := by rw [List.any_map]; rfl

/-- No opcode byte has an n field above 2. -/
theorem decodeOpcode_eq_none_of_two_lt {b : Byte} (h : 2 < operandCount b) : decodeOpcode b = none := by
  rw [Option.eq_none_iff_forall_ne_some]
  intro o ho
  rw [eq_opcodeByte_of_decodeOpcode ho] at h
  exact absurd (operandCount_opcodeByte_le o) (Nat.not_le_of_lt h)

/-! ## The obligations of the encoding family -/

/-- Settles O1: `decode_eq_ok_iff` fixes the opcode byte and the operands in front, and what drops after them is the
rest. -/
theorem decodeIffEncode : Obligations.DecodeIffEncode := by
  unfold Obligations.DecodeIffEncode
  intro i rest bs
  cases bs with
  | nil => simp [decodeBytes, encode]
  | cons b l =>
    rw [decodeBytes_cons_eq_ok_iff, decode_eq_ok_iff, encode, List.cons_append, List.cons.injEq]
    constructor
    · rintro ⟨⟨rfl, tail, rfl⟩, rfl⟩
      simp [operandCount_instr]
    · rintro ⟨rfl, rfl⟩
      simp [operandCount_instr]

/-- Settles O2: each word is the encoding of its instruction, so O1 decodes it. -/
theorem wordsDecodeAsTheTableSays : Obligations.WordsDecodeAsTheTableSays := by
  unfold Obligations.WordsDecodeAsTheTableSays
  refine ⟨?_, ?_, ?_, ?_, ?_, ?_, ?_, ?_, ?_⟩ <;> exact (decodeIffEncode _ _ _).mpr rfl

/-- Settles O3: the fields row by row; which bytes are opcodes is `decodeOpcode_isSome`. -/
theorem opcodeFieldsAgreeWithTable : Obligations.OpcodeFieldsAgreeWithTable := by
  unfold Obligations.OpcodeFieldsAgreeWithTable
  exact ⟨by decide, decodeOpcode_isSome⟩

/-- Settles O4: the n field counts an instruction's operands, and no opcode byte has n = 3. -/
theorem lengthComesFromBits76 : Obligations.LengthComesFromBits76 := by
  unfold Obligations.LengthComesFromBits76
  refine ⟨fun i => ⟨_, _, rfl, ?_⟩, fun b ops h => ?_⟩
  · exact congrArg (· + 1) (operandCount_instr i).symm
  · have hn : operandCount b = 3 := congrArg BitVec.toNat h
    exact decode_of_decodeOpcode_none (decodeOpcode_eq_none_of_two_lt (by omega)) ops

end Sys2Proof.Machine
end

section
/-! PROOFS. The cycle family (40_cycle.md): fetch, decode, validation, the sequential advance, HLT and RUN. -/

namespace Sys2Proof.Machine

/-! ## Decode at the PC (40_cycle.md R97, R100, R101) -/

/-- The decoder knows no other bytes than the table's (30_encoding.md R80). -/
theorem decodeOpcode_eq_none_of_row_ne {b : Byte} (h : ∀ row ∈ opcodeRows, row.1 ≠ b) : decodeOpcode b = none := by
  rw [← Option.not_isSome_iff_eq_none, Bool.not_eq_true, decodeOpcode_isSome, List.any_eq_false]
  exact fun row hrow => by simpa using h row hrow

/-- A step whose bytes decode runs their instruction at the fetched state. -/
theorem step_of_decode {s : State} {i : Instr} (hr : s.runState = .running)
    (hd : decode s.opcodeAtPc s.operandsAtPc = .ok i) : step s = exec i s.fetch := by
  rw [step_of_running hr, runInstruction, hd]

/-- Cells that hold the encoding of `i` give `i`'s operand bytes to fetch. -/
theorem operandsAtPc_of_encode {s : State} {i : Instr}
    (h : ∀ k (hk : k < (encode i).length), s.pc.toNat + k ≤ 255 ∧ s.byteAt k = (encode i)[k]) :
    s.operandsAtPc = instrOperands i := by
  have hb : s.byteAt 0 = opcodeByte (instrOpcode i) := (h 0 (Nat.succ_pos _)).2
  have hlast : s.pc.toNat + (instrOperands i).length ≤ 255 := (h _ (Nat.lt_succ_self _)).1
  rw [operandsAtPc_of_opcode hb (operandCount_instr i ▸ hlast), operandCount_instr]
  refine List.ext_getElem (by simp) fun k _ hk => ?_
  have hbyte : s.byteAt (k + 1) = (instrOperands i)[k] := (h (k + 1) (Nat.succ_lt_succ hk)).2
  simpa [Nat.add_comm 1 k] using hbyte

/-- States with one PC and the same latches fetch alike if they agree on the opcode byte and the n bytes it consumes
(40_cycle.md R101). -/
theorem fetch_latchesKept {s u : State} {o : Opcode} (ho : s.byteAt 0 = opcodeByte o) (hpc : u.pc = s.pc)
    (hop1 : u.op1 = s.op1) (hop2 : u.op2 = s.op2)
    (hread : ∀ j ≤ operandCount (opcodeByte o), u.byteAt j = s.byteAt j) : LatchesKept s.fetch u.fetch := by
  have hopcode : u.opcodeAtPc = s.opcodeAtPc := hread 0 (Nat.zero_le _)
  have hops : u.operandsAtPc = s.operandsAtPc := by
    refine operandsAtPc_congr hpc (hread 0 (Nat.zero_le _)) fun p hp j _ hj => hread j ?_
    rwa [← ho, hp]
  rw [State.fetch, State.fetch, hopcode, hops]
  exact ⟨rfl, by simp [hop1], by simp [hop2]⟩

/-- A step that answers a fault entry of the fetched state takes that fault (60_exceptions.md R182). -/
theorem stepFaults_of_enterFault {s : State} {r : Raise} (e : step s = .next (s.fetch.enterFault r)) :
    StepFaults s r.cause r.info.toNat :=
  ⟨_, e, faultTaken_enterFault s.fetch r⟩

/-- A whole byte as FAULT_INFO keeps its value (60_exceptions.md R183). -/
theorem toNat_info_of_byte (b : Byte) : (b.setWidth 9).toNat = b.toNat :=
  BitVec.toNat_setWidth_of_le (by decide)

/-! ## Register validation and the handler's answer (40_cycle.md R102, R103) -/

/-- The first register operand byte above 7, if there is one (40_cycle.md R102). -/
def firstBadReg (regBytes : List Byte) : Option Byte := regBytes.find? fun b => !decide (namesReg b)

theorem firstBadReg_eq_none_iff {l : List Byte} : firstBadReg l = none ↔ ∀ b ∈ l, namesReg b := by
  simp [firstBadReg]

theorem firstBadReg_append {before after : List Byte} {b : Byte} (hbefore : ∀ c ∈ before, namesReg c)
    (hb : ¬ namesReg b) : firstBadReg (before ++ b :: after) = some b := by
  simp only [firstBadReg, List.find?_eq_some_iff_append]
  exact ⟨by simpa using hb, before, after, rfl, by simpa using hbefore⟩

/-- What a handler itself can raise (60_exceptions.md R184, items 4 and 5). -/
def handlerCauses : List FaultCause := [.divideByZero, .stackPushRange, .stackPopRange, .pcRange]

/-- What a handler can answer: it completes outside FAULTED, or raises a handler's cause. -/
inductive HandlerResult : Result → Prop
  | ok {t : State} : t.runState ≠ .faulted → HandlerResult (.ok t)
  | error {r : Raise} : r.cause ∈ handlerCauses → HandlerResult (.error r)

/-- What an instruction with these register operand bytes answers from `s`: its handler's result, committed, if every
byte names a register, and else REGISTER_INDEX with the first that does not. -/
inductive Validated (s : State) (regBytes : List Byte) : Host.Outcome State Fault Refusal → Prop
  | handler {h : Result} : firstBadReg regBytes = none → HandlerResult h → Validated s regBytes (commit s h)
  | badReg {b : Byte} : firstBadReg regBytes = some b →
      Validated s regBytes (.next (s.enterFault ⟨.registerIndex, b.setWidth 9⟩))

section

variable {s : State}

theorem namesReg_of_eq {ra : Byte} {a : Reg} (ha : ra.toNat = a.val) : namesReg ra := by
  have := a.isLt
  show ra.toNat ≤ 7
  omega

theorem formF1R_validated (ra : Byte) {h : Reg → State → Result} (hh : ∀ a, HandlerResult (h a s)) :
    Validated s [ra] (formF1R ra h s) := by
  obtain ⟨a, ha⟩ | ha := exists_reg_or_gt ra
  · exact formF1R_of_eq ha h ▸ .handler (by simp [firstBadReg, namesReg_of_eq ha]) (hh a)
  · exact formF1R_of_gt ha h ▸ .badReg (by simp [firstBadReg, ha])

theorem formF2RI_validated (ra imm : Byte) {h : Reg → Byte → State → Result} (hh : ∀ a, HandlerResult (h a imm s)) :
    Validated s [ra] (formF2RI ra imm h s) :=
  formF1R_validated ra (h := fun a => h a imm) hh

theorem formF2RR_validated (ra rb : Byte) {h : Reg → Reg → State → Result} (hh : ∀ a b, HandlerResult (h a b s)) :
    Validated s [ra, rb] (formF2RR ra rb h s) := by
  obtain ⟨a, ha⟩ | ha := exists_reg_or_gt ra
  · obtain ⟨b, hb⟩ | hb := exists_reg_or_gt rb
    · exact formF2RR_of_eq ha hb h ▸ .handler (by simp [firstBadReg, namesReg_of_eq ha, namesReg_of_eq hb]) (hh a b)
    · exact formF2RR_of_eq_gt ha hb h ▸ .badReg (by simp [firstBadReg, namesReg_of_eq ha, hb])
  · exact formF2RR_of_gt ha h ▸ .badReg (by simp [firstBadReg, ha])

variable (hs : s.runState ≠ .faulted)
include hs

theorem advance_handlerResult (n : Nat) : HandlerResult (advance n s) := by
  obtain ⟨p, -, e⟩ | ⟨-, e⟩ := advance_cases n s
  · exact e ▸ .ok hs
  · exact e ▸ .error (by simp [handlerCauses])

omit hs in
theorem thenAdvance_handlerResult (n : Nat) {h : Result} (hh : HandlerResult h) : HandlerResult (thenAdvance n h) := by
  cases hh with
  | ok ht => exact advance_handlerResult ht n
  | error hr => exact .error hr

theorem aluWrite_handlerResult (f : Byte → Byte → Byte) (a b : Reg) : HandlerResult (aluWrite f a b s) :=
  thenAdvance_handlerResult 2 (.ok hs)

theorem aluDivide_handlerResult (f : Byte → Byte → Byte) (a b : Reg) : HandlerResult (aluDivide f a b s) := by
  rw [aluDivide]
  split
  · exact .error (by simp [handlerCauses])
  · exact aluWrite_handlerResult hs f a b

theorem push_handlerResult (a : Reg) : HandlerResult (push a s) := by
  cases h : push a s with
  | ok t =>
    obtain ⟨-, rfl⟩ := push_inv h
    exact .ok hs
  | error r =>
    obtain ⟨-, rfl⟩ := push_error h
    exact .error (by simp [handlerCauses])

theorem pop_handlerResult (a : Reg) : HandlerResult (pop a s) := by
  cases h : pop a s with
  | ok t =>
    obtain ⟨v, -, -, rfl⟩ := pop_inv h
    exact .ok hs
  | error r =>
    obtain rfl := pop_error h
    exact .error (by simp [handlerCauses])

theorem ret_handlerResult : HandlerResult (ret s) := by
  have hp := pop_handlerResult hs linkReg
  rw [ret]
  generalize pop linkReg s = h at hp ⊢
  cases hp with
  | ok ht => exact .ok ht
  | error hr => exact .error hr

theorem call_handlerResult (a : Reg) : HandlerResult (call a s) := by
  cases h : call a s with
  | ok t =>
    obtain ⟨-, -, rfl⟩ := call_inv h
    exact .ok hs
  | error r =>
    obtain ⟨-, rfl⟩ | ⟨-, rfl⟩ := call_error h
    · exact .error (by simp [handlerCauses])
    · exact .error (by simp [handlerCauses])

theorem branch_handlerResult (taken : Bool) (a : Reg) : HandlerResult (branch taken a s) := by
  cases taken with
  | true => exact .ok hs
  | false => exact advance_handlerResult hs 1

/-- Every instruction validates its register operands before its handler runs (40_cycle.md R102). -/
theorem exec_validated (i : Instr) : Validated s i.regBytes (exec i s) := by
  cases i with
  | hlt => exact .handler (h := .ok s.halt) rfl (.ok (by simp))
  | ret => exact .handler rfl (ret_handlerResult hs)
  | ldi ra imm =>
    rw [exec, execLdi]
    exact formF2RI_validated ra imm fun a => thenAdvance_handlerResult 2 (.ok hs)
  | prn ra =>
    rw [exec, execPrn]
    exact formF1R_validated ra fun a => thenAdvance_handlerResult 1 (.ok hs)
  | not ra =>
    rw [exec, execNot]
    exact formF1R_validated ra fun a => thenAdvance_handlerResult 1 (.ok hs)
  | push ra =>
    rw [exec, execPush]
    exact formF1R_validated ra fun a => thenAdvance_handlerResult 1 (push_handlerResult hs a)
  | pop ra =>
    rw [exec, execPop]
    exact formF1R_validated ra fun a => thenAdvance_handlerResult 1 (pop_handlerResult hs a)
  | call ra => exact formF1R_validated ra (call_handlerResult hs)
  | jmp ra =>
    rw [exec, execJmp]
    exact formF1R_validated ra fun a => .ok hs
  | jeq ra | jne ra => exact formF1R_validated ra (branch_handlerResult hs _)
  | add ra rb | sub ra rb | mul ra rb | and ra rb | or ra rb | xor ra rb | shl ra rb | shr ra rb =>
    exact formF2RR_validated ra rb (aluWrite_handlerResult hs _)
  | div ra rb | mod ra rb => exact formF2RR_validated ra rb (aluDivide_handlerResult hs _)
  | cmp ra rb =>
    rw [exec, execCmp]
    exact formF2RR_validated ra rb fun a b => thenAdvance_handlerResult 2 (.ok hs)

end

/-- A first bad register operand byte is reported, whatever the handler would do. -/
theorem exec_of_firstBadReg {i : Instr} {s : State} {b : Byte} (hs : s.runState ≠ .faulted)
    (hb : firstBadReg i.regBytes = some b) : exec i s = .next (s.enterFault ⟨.registerIndex, b.setWidth 9⟩) := by
  have hv := exec_validated hs i
  generalize exec i s = x at hv ⊢
  cases hv with
  | handler hnone _ => exact absurd (hnone.symm.trans hb) nofun
  | badReg hsome => rw [Option.some.inj (hsome.symm.trans hb)]

/-- The cause of an instruction that faults: REGISTER_INDEX for an operand that names no register, or a handler's. -/
theorem exec_fault_cause {i : Instr} {s t : State} (hs : s.runState ≠ .faulted) (e : exec i s = .next t)
    (ht : t.runState = .faulted) :
    (t.fault.cause = .registerIndex ∧ ¬ i.WellFormed) ∨ t.fault.cause ∈ handlerCauses := by
  have hv := exec_validated hs i
  rw [e] at hv
  generalize hx : Host.Outcome.next t = x at hv
  cases hv with
  | handler _ hh =>
    cases hh with
    | ok hu => exact absurd (Host.Outcome.next.inj hx ▸ ht) hu
    | error hr => exact .inr (Host.Outcome.next.inj hx ▸ hr)
  | badReg hb =>
    obtain rfl := Host.Outcome.next.inj hx
    exact .inl ⟨rfl, fun hw => absurd (hb.symm.trans (firstBadReg_eq_none_iff.mpr hw)) nofun⟩

/-! ## The sequential advance (40_cycle.md R104) -/

/-- A completed effect of an instruction with P = 0 other than HLT leaves the PC past the instruction. -/
theorem Effect.pc_of_sequential {s t : State} {i : Instr} (h : Effect s i t) (hi : i ≠ .hlt)
    (hp : pcControl (opcodeByte (instrOpcode i)) = false) : t.pc.toNat = s.pc.toNat + (encode i).length := by
  cases h
  case hlt => exact absurd rfl hi
  case call | ret | jmp | jeqTaken | jeqPast | jneTaken | jnePast =>
    simp only [instrOpcode] at hp
    exact absurd hp (by decide)
  all_goals assumption

/-! ## HLT, LDI, PRN and NOT where they complete -/

theorem exec_ldi_of_le {s : State} {ra imm : Byte} {a : Reg} (ha : ra.toNat = a.val) (hp : s.pc.toNat ≤ 252) :
    exec (.ldi ra imm) s = .next ((s.setReg a imm).setPc (s.pc + 3)) := by
  rw [exec, execLdi, formF2RI_of_eq ha, thenAdvance_ok, advance_of_le (by exact Nat.add_le_add_right hp 3)]
  rfl

theorem exec_prn_of_le {s : State} {ra : Byte} {a : Reg} (ha : ra.toNat = a.val) (hp : s.pc.toNat ≤ 253) :
    exec (.prn ra) s = .next ((s.emit (s.reg a)).setPc (s.pc + 2)) := by
  rw [exec, execPrn, formF1R_of_eq ha, thenAdvance_ok, advance_of_le (by exact Nat.add_le_add_right hp 2)]
  rfl

theorem exec_not_of_le {s : State} {ra : Byte} {a : Reg} (ha : ra.toNat = a.val) (hp : s.pc.toNat ≤ 253) :
    exec (.not ra) s = .next ((s.setReg a (aluNot (s.reg a))).setPc (s.pc + 2)) := by
  rw [exec, execNot, formF1R_of_eq ha, thenAdvance_ok, advance_of_le (by exact Nat.add_le_add_right hp 2)]
  rfl

/-- 255 minus a byte is its complement (42_alu.md R141). -/
theorem aluNot_eq_complement (x : Byte) : aluNot x = ~~~x := by
  apply BitVec.eq_of_toNat_eq
  simp only [aluNot, BitVec.toNat_ofNat, BitVec.toNat_not]
  omega

/-- HLT at the PC halts the fetched state, at every PC (40_cycle.md R98, R99). -/
theorem step_of_hlt {s : State} (hs : s.At 0x01) : step s = .next s.fetch.halt :=
  step_of_opcode (o := .hlt) hs.1 hs.2 (Nat.le_of_lt_succ s.pc.isLt)

/-- HLT fetches no operand, so the latches keep their bytes (log 4). -/
theorem operandsAtPc_of_hlt {s : State} (hs : s.At 0x01) : s.operandsAtPc = [] :=
  operandsAtPc_of_opcode (o := .hlt) hs.2 (Nat.le_of_lt_succ s.pc.isLt)

/-! ## Inputs that change nothing (70_reset_and_hazards.md R216) -/

/-- No input but RESET changes a HALTED state. -/
theorem portAct_of_halted {s : State} (hs : s.runState = .halted) {e : PortEvent} (he : ∀ p, e ≠ .reset p) :
    portAct e s = .next s := by
  cases e with
  | reset p => exact absurd rfl (he p)
  | load a v => simp only [portAct, portLoad, hs]
  | start => simp only [portAct, portStart, hs]
  | step => exact step_of_not_running (by simp [hs])

/-- Inputs that each leave the state leave it together. -/
theorem portAll_of_fixed {s : State} {es : List PortEvent} (h : ∀ e ∈ es, portAct e s = .next s) :
    portAll es s = .next s := by
  induction es with
  | nil => rfl
  | cons e es ih =>
    obtain ⟨he, hes⟩ := List.forall_mem_cons.mp h
    rw [portAll, he]
    exact ih hes

/-! ## RUN (40_cycle.md R107) -/

theorem run_succ_of_step {s t : State} (hr : s.runState = .running) (e : step s = .next t) (fuel : Nat) :
    run (fuel + 1) s = run fuel t := by
  simp only [run, hr, e]

theorem run_of_not_running {s : State} (hr : s.runState ≠ .running) (fuel : Nat) : run fuel s = .next s := by
  cases fuel with
  | zero => rfl
  | succ fuel =>
    rw [run]
    split
    · exact absurd ‹_› hr
    all_goals rfl

/-- RUN with more fuel goes on from where RUN with less fuel is; where that has ended, it stays. -/
theorem run_add {fuel : Nat} {s t : State} (e : run fuel s = .next t) (more : Nat) :
    run (fuel + more) s = run more t := by
  induction fuel generalizing s with
  | zero => rw [Nat.zero_add, Host.Outcome.next.inj e]
  | succ fuel ih =>
    by_cases hr : s.runState = .running
    · obtain ⟨u, hu⟩ := exists_step_next hr
      rw [run_succ_of_step hr hu] at e
      rw [Nat.succ_add, run_succ_of_step hr hu, ih e]
    · obtain rfl := Host.Outcome.next.inj ((run_of_not_running hr _).symm.trans e)
      rw [run_of_not_running hr, run_of_not_running hr]

/-! ## The obligations of the cycle family -/

/-- Settles O7: fetch loads IR, and what the step does after it keeps it. -/
theorem fetchLoadsIR : Obligations.FetchLoadsIR := by
  unfold Obligations.FetchLoadsIR
  intro s hr
  obtain ⟨t, e⟩ := exists_step_next hr
  obtain ⟨hir, -, -⟩ := step_latches hr e
  exact ⟨t, e, hir⟩

/-- Settles O8: a byte in no row of the table is refused by the decoder. -/
theorem illegalOpcodeFaults : Obligations.IllegalOpcodeFaults := by
  unfold Obligations.IllegalOpcodeFaults
  intro s hr hrow
  have hf := stepFaults_of_enterFault (step_of_illegal hr (decodeOpcode_eq_none_of_row_ne hrow))
  rwa [toNat_info_of_byte] at hf

/-- Settles O9: a short fetch is refused, a whole one loads the latches, which the instruction keeps; a cell above the
consumed ones leaves the fetched operands as they are. -/
theorem operandFetchReadsOrFaults : Obligations.OperandFetchReadsOrFaults := by
  unfold Obligations.OperandFetchReadsOrFaults
  intro s row hrow ⟨hr, hb⟩
  obtain ⟨o, -, hop, hcount⟩ := exists_opcode_of_row row hrow
  have ho : s.byteAt 0 = opcodeByte o := hb.trans hop
  rw [hcount]
  refine ⟨fun hn => stepFaults_of_enterFault (step_of_short hr ho hn), fun hn => ?_⟩
  obtain ⟨t, e⟩ := exists_step_next hr
  obtain ⟨hir, hop1, hop2⟩ := step_latches hr e
  refine ⟨t, e, fun h1 => hop1.trans (fetch_op1 ho hn h1), fun h2 => hop2.trans (fetch_op2 ho hn h2), ?_, ?_⟩
  · rintro ⟨ht, hc⟩
    have hcause := exec_fault_cause (s := s.fetch) (by simp [hr]) ((step_of_opcode hr ho hn).symm.trans e) ht
    rw [hc] at hcause
    exact absurd hcause (by simp [handlerCauses])
  · intro k v hk
    obtain ⟨u, hu⟩ := exists_step_next (s := { s with mem := s.mem.write (s.pc.toNat + k) v }) hr
    obtain ⟨uir, uop1, uop2⟩ := step_latches (by exact hr) hu
    obtain ⟨wir, wop1, wop2⟩ := fetch_latchesKept (u := { s with mem := s.mem.write (s.pc.toNat + k) v }) ho rfl rfl rfl
      fun j hj => Memory.read_write_other _ _ _ _ (Nat.ne_of_lt (Nat.add_lt_add_left (Nat.lt_of_le_of_lt hj hk) _))
    exact ⟨u, hu, (uir.trans wir).trans hir.symm, (uop1.trans wop1).trans hop1.symm,
      (uop2.trans wop2).trans hop2.symm⟩

/-- Settles O10: the instruction is validated before its handler, and no handler raises REGISTER_INDEX. -/
theorem registerOperandsAreValidatedFirst : Obligations.RegisterOperandsAreValidatedFirst := by
  unfold Obligations.RegisterOperandsAreValidatedFirst
  intro s i hr hd
  have hstep := step_of_decode hr hd
  have hs : s.fetch.runState ≠ .faulted := by simp [hr]
  refine ⟨fun before b after hsplit hbefore hb => ?_, fun hw => ?_⟩
  · have hbad : firstBadReg i.regBytes = some b := hsplit ▸ firstBadReg_append hbefore hb
    have hf := stepFaults_of_enterFault (hstep.trans (exec_of_firstBadReg hs hbad))
    rwa [toNat_info_of_byte] at hf
  · obtain ⟨t, e⟩ := exec_next i s.fetch
    refine ⟨t, hstep.trans e, fun ⟨ht, hc⟩ => ?_⟩
    obtain ⟨-, hnw⟩ | hcause := exec_fault_cause hs e ht
    · exact hnw hw
    · rw [hc] at hcause
      exact absurd hcause (by decide)

/-- Settles O11: a completed effect leaves a PC that is a byte, so past 255 there is only the fault entry. -/
theorem sequentialAdvanceNeverWraps : Obligations.SequentialAdvanceNeverWraps := by
  unfold Obligations.SequentialAdvanceNeverWraps
  intro i s t hr hi hp e
  obtain h | ⟨r, rfl⟩ := exec_inv e
  · have hpc := h.pc_of_sequential hi hp
    have hlt := t.pc.isLt
    exact ⟨fun _ => hpc, fun hgt => absurd hgt (by omega)⟩
  · exact ⟨nofun, fun _ => rfl⟩

/-- Settles O27: `run_add`, and a state that has ended stays whatever the fuel. -/
theorem runStopsOnlyAtAnEnd : Obligations.RunStopsOnlyAtAnEnd := by
  unfold Obligations.RunStopsOnlyAtAnEnd
  refine ⟨fun _ => rfl, fun s hr => ?_, fun fuel more s t e => ⟨fun ht => ?_, fun _ => run_add e more⟩⟩
  · obtain ⟨t, e⟩ := exists_step_next hr
    exact ⟨t, e, run_succ_of_step hr e⟩
  · rw [run_add e, run_of_not_running ht]

/-- Settles O46: HLT halts the fetched state with its latches as they were, and a HALTED state takes only RESET. -/
theorem hltStep : Obligations.HltStep := by
  unfold Obligations.HltStep
  intro s hs
  refine ⟨s.fetch.halt, step_of_hlt hs, rfl, rfl, ⟨rfl, rfl, rfl, rfl, rfl⟩, ?_, ?_, fun es hes => ?_⟩
  · simp [State.fetch, operandsAtPc_of_hlt hs]
  · simp [State.fetch, operandsAtPc_of_hlt hs]
  · exact portAll_of_fixed fun e he => portAct_of_halted rfl fun p hp => hes p (hp ▸ he)

/-- Settles O5: the cells decode to `i`, and fetch loads the opcode byte and `i`'s operands. -/
theorem stepRunsTheDecodedInstruction : Obligations.StepRunsTheDecodedInstruction := by
  unfold Obligations.StepRunsTheDecodedInstruction
  intro i s hr h
  have hb : s.opcodeAtPc = opcodeByte (instrOpcode i) := (h 0 (Nat.succ_pos _)).2
  have hops := operandsAtPc_of_encode h
  have hd : decode s.opcodeAtPc s.operandsAtPc = .ok i := decode_eq_ok_iff.mpr ⟨hb, [], by rw [hops, List.append_nil]⟩
  rw [step_of_decode hr hd, State.fetch, hb, hops]
  rfl

/-- Settles O6: outside RUNNING the step answers its own state. -/
theorem stepOutsideRunningChangesNothing : Obligations.StepOutsideRunningChangesNothing := by
  unfold Obligations.StepOutsideRunningChangesNothing
  exact fun s hr => step_of_not_running hr

/-- Settles O47: the four instructions with their operand's register and the PC below its limit. -/
theorem hltLdiPrnNotComplete : Obligations.HltLdiPrnNotComplete := by
  unfold Obligations.HltLdiPrnNotComplete
  intro s ra imm a ha
  refine ⟨rfl, exec_ldi_of_le ha, fun hp => ⟨exec_prn_of_le ha hp, ?_⟩⟩
  rw [← aluNot_eq_complement]
  exact exec_not_of_le ha hp

end Sys2Proof.Machine
end

section
/-! PROOFS. The register and stack family (41_register_stack.md): LDI, PRN, PUSH and POP as whole steps, the frames of
the forms that use the stack, and pushes undone by pops. -/

namespace Sys2Proof.Machine

/-! ## The faults before the handler, from the opcode at the PC (40_cycle.md R101, R102) -/

section

variable {s : State} {o : Opcode} (hs : s.At (opcodeByte o))
include hs

theorem operandRangeFaults_of_at : OperandRangeFaults (operandCount (opcodeByte o)) s :=
  fun hn => stepFaults_of_enterFault (step_of_short hs.1 hs.2 hn)

/-- An opcode whose first operand byte is a register faults where that byte names none. -/
theorem op1IndexFaults_of_at {rest : List Byte}
    (hregs : (assemble o (s.byteAt 1) (s.byteAt 2)).regBytes = s.byteAt 1 :: rest) :
    Op1IndexFaults (operandCount (opcodeByte o)) s := by
  intro hn hgt
  have hbad : firstBadReg (assemble o (s.byteAt 1) (s.byteAt 2)).regBytes = some (s.byteAt 1) :=
    hregs ▸ firstBadReg_append (before := []) nofun (Nat.not_le_of_gt hgt)
  have hf := stepFaults_of_enterFault
    ((step_of_opcode hs.1 hs.2 hn).trans (exec_of_firstBadReg (s := s.fetch) (by simp [hs.1]) hbad))
  rwa [toNat_info_of_byte] at hf

end

/-! ## Sums of the PC, the advance at the last place, two register writes, and a pop by the value it increments -/

theorem toNat_add_of_le {p : Byte} {k : Nat} (h : p.toNat + k ≤ 255) : (p + BitVec.ofNat 8 k).toNat = p.toNat + k := by
  rw [BitVec.toNat_add, BitVec.toNat_ofNat]
  omega

theorem advance_of_eq_256 {n : Nat} {s : State} (h : s.pc.toNat + n + 1 = 256) :
    advance n s = .error ⟨.pcRange, 256⟩ := by
  rw [advance_of_gt (by omega), h]
  rfl

/-- Two register writes leave the other registers. -/
theorem reg_setReg_setReg_other {s : State} {a b q : Reg} {v w : Byte} (ha : q ≠ a) (hb : q ≠ b) :
    ((s.setReg a v).setReg b w).reg q = s.reg q :=
  (State.reg_setReg_other _ _ _ _ hb).trans (State.reg_setReg_other _ _ _ _ ha)

/-- A pop by the value `v` it increments: the popped byte when the register is SP itself (41_register_stack.md R117). -/
theorem pop_eq {i : Reg} {s : State} {v : Byte} (hv : v = if i = 7 then s.load (s.reg 7) else s.reg 7) :
    pop i s = if v = 255 then .error ⟨.stackPopRange, 255⟩
      else .ok ((s.setReg i (s.load (s.reg 7))).setReg 7 (v + 1)) := by
  by_cases hi : i = 7
  · subst hi
    rw [hv, pop_of_sp, if_pos rfl]
  · rw [hv, pop_of_other hi, if_neg hi]

/-! ## LDI, PRN, PUSH and POP with an operand that names a register -/

section

variable {s : State} {ra : Byte} {a : Reg} (ha : ra.toNat = a.val)
include ha

theorem exec_ldi_at_253 {imm : Byte} (hp : s.pc.toNat = 253) :
    exec (.ldi ra imm) s = .next (s.enterFault ⟨.pcRange, 256⟩) := by
  rw [exec, execLdi, formF2RI_of_eq ha, thenAdvance_ok, advance_of_eq_256 (by exact congrArg (· + 3) hp)]
  rfl

theorem exec_prn_at_254 (hp : s.pc.toNat = 254) :
    exec (.prn ra) s = .next (s.enterFault ⟨.pcRange, 256⟩) := by
  rw [exec, execPrn, formF1R_of_eq ha, thenAdvance_ok, advance_of_eq_256 (by exact congrArg (· + 2) hp)]
  rfl

theorem exec_push_of_reg : exec (.push ra) s = commit s (thenAdvance 1 (push a s)) := by
  rw [exec, execPush, formF1R_of_eq ha]

theorem exec_push_of_zero (hz : s.reg 7 = 0) : exec (.push ra) s = .next (s.enterFault ⟨.stackPushRange, 0⟩) := by
  rw [exec_push_of_reg ha, push_of_zero hz]
  rfl

theorem exec_push_at_254 (hz : s.reg 7 ≠ 0) (hp : s.pc.toNat = 254) :
    exec (.push ra) s = .next (s.enterFault ⟨.pcRange, 256⟩) := by
  rw [exec_push_of_reg ha, push_of_ne hz, thenAdvance_ok, advance_of_eq_256 (by exact congrArg (· + 2) hp)]
  rfl

theorem exec_pop_of_reg : exec (.pop ra) s = commit s (thenAdvance 1 (pop a s)) := by
  rw [exec, execPop, formF1R_of_eq ha]

variable {v : Byte} (hv : v = if a = 7 then s.load (s.reg 7) else s.reg 7)
include hv

theorem exec_pop_of_255 (h : v = 255) : exec (.pop ra) s = .next (s.enterFault ⟨.stackPopRange, 255⟩) := by
  rw [exec_pop_of_reg ha, pop_eq hv, if_pos h]
  rfl

theorem exec_pop_at_254 (h : v ≠ 255) (hp : s.pc.toNat = 254) :
    exec (.pop ra) s = .next (s.enterFault ⟨.pcRange, 256⟩) := by
  rw [exec_pop_of_reg ha, pop_eq hv, if_neg h, thenAdvance_ok, advance_of_eq_256 (by exact congrArg (· + 2) hp)]
  rfl

theorem exec_pop_of_ne (h : v ≠ 255) (hp : s.pc.toNat ≤ 253) :
    exec (.pop ra) s = .next (((s.setReg a (s.load (s.reg 7))).setReg 7 (v + 1)).setPc (s.pc + 2)) := by
  rw [exec_pop_of_reg ha, pop_eq hv, if_neg h, thenAdvance_ok, advance_of_le (by exact Nat.add_le_add_right hp 2)]
  rfl

end

/-! ## Pushes and then the same pops in reverse order (41_register_stack.md R118) -/

theorem execAll_append {is js : List Instr} {s t : State} (e : execAll is s = .next t) :
    execAll (is ++ js) s = execAll js t := by
  induction is generalizing s with
  | nil => rw [List.nil_append, Host.Outcome.next.inj e]
  | cons i is ih =>
    obtain ⟨u, hu⟩ := exec_next i s
    simp only [List.cons_append, execAll, hu] at e ⊢
    exact ih e

/-- The operand byte of a register names it. -/
theorem toNat_ofNat_reg (r : Reg) : (BitVec.ofNat 8 r.val).toNat = r.val := by
  rw [BitVec.toNat_ofNat]
  omega

/-- The pushes of R118, then the pops. -/
def pushesThenPops (rs : List Reg) : List Instr :=
  rs.map (fun r => Instr.push (BitVec.ofNat 8 r.val)) ++ rs.reverse.map fun r => Instr.pop (BitVec.ofNat 8 r.val)

/-- One more register is pushed before the rest and popped after it. -/
theorem pushesThenPops_cons (r : Reg) (rs : List Reg) :
    pushesThenPops (r :: rs) =
      .push (BitVec.ofNat 8 r.val) :: (pushesThenPops rs ++ [.pop (BitVec.ofNat 8 r.val)]) := by
  simp [pushesThenPops]

/-- The state after a PUSH of `r` that completes (41_register_stack.md R121). -/
def afterPush (r : Reg) (s : State) : State :=
  ((s.setReg 7 (s.reg 7 - 1)).store (s.reg 7 - 1) (if r = 7 then s.reg 7 - 1 else s.reg r)).setPc (s.pc + 2)

theorem exec_push_eq_afterPush {r : Reg} {s : State} (hz : s.reg 7 ≠ 0) (hp : s.pc.toNat ≤ 253) :
    exec (.push (BitVec.ofNat 8 r.val)) s = .next (afterPush r s) :=
  exec_push_of_ne (toNat_ofNat_reg r) hz (Nat.add_le_add_right hp 2)

theorem afterPush_reg (r q : Reg) (s : State) :
    (afterPush r s).reg q = if q = 7 then s.reg 7 - 1 else s.reg q :=
  State.reg_setReg _ _ _ _

theorem afterPush_pc {s : State} (r : Reg) (hp : s.pc.toNat ≤ 253) : (afterPush r s).pc.toNat = s.pc.toNat + 2 :=
  toNat_add_of_le (k := 2) (Nat.add_le_add_right hp 2)

/-- What balanced pushes and pops of `n` bytes leave: only cells below SP may differ. -/
structure Balanced (n : Nat) (s t : State) : Prop where
  reg    : ∀ r : Reg, t.reg r = s.reg r
  status : StatusKept s t
  fl     : t.fl = s.fl
  out    : t.out = s.out
  pc     : t.pc.toNat = s.pc.toNat + n
  mem    : ∀ c, (s.reg 7).toNat ≤ c → t.mem.read c = s.mem.read c

/-- A POP of the register last pushed, after balanced code, completes and is balanced with the PUSH: it finds the byte
that the PUSH stored and SP one below where it was. -/
theorem exec_pop_balanced {s u : State} {r : Reg} {n : Nat} (hz : s.reg 7 ≠ 0) (hp : s.pc.toNat + n + 4 ≤ 255)
    (h : Balanced n (afterPush r s) u) :
    ∃ t, exec (.pop (BitVec.ofNat 8 r.val)) u = .next t ∧ Balanced (n + 4) s t := by
  have hreg (q : Reg) : u.reg q = if q = 7 then s.reg 7 - 1 else s.reg q := (h.reg q).trans (afterPush_reg r q s)
  have hsp : u.reg 7 = s.reg 7 - 1 := hreg 7
  have hpc : u.pc.toNat = s.pc.toNat + n + 2 := by
    rw [h.pc, afterPush_pc r (by omega)]
    omega
  have hmem (c : Nat) (hc : (s.reg 7 - 1).toNat ≤ c) : u.mem.read c = (afterPush r s).mem.read c :=
    h.mem c (by rwa [afterPush_reg, if_pos rfl])
  have hpopped : u.load (u.reg 7) = if r = 7 then s.reg 7 - 1 else s.reg r := by
    rw [hsp]
    exact (hmem _ (Nat.le_refl _)).trans (Memory.read_write_same _ _ _)
  have hv : s.reg 7 - 1 = if r = 7 then u.load (u.reg 7) else u.reg 7 := by
    rw [hpopped, hsp]
    split <;> rfl
  refine ⟨_, exec_pop_of_ne (toNat_ofNat_reg r) hv (by bv_omega) (by omega), fun q => ?_, h.status, h.fl, h.out, ?_,
    fun c hc => ?_⟩
  · rw [State.setPc_reg, State.reg_setReg, State.reg_setReg, hpopped, hreg]
    by_cases h7 : q = 7
    · rw [if_pos h7, h7, BitVec.sub_add_cancel]
    · by_cases hq : q = r
      · simp [← hq, h7]
      · simp [hq, h7]
  · rw [State.setPc_pc]
    bv_omega
  · have habove : (s.reg 7 - 1).toNat < c := by bv_omega
    exact (hmem c (Nat.le_of_lt habove)).trans (Memory.read_write_other _ _ _ _ (Nat.ne_of_gt habove))

theorem execAll_pushesThenPops (rs : List Reg) (s : State) (hsp : rs.length ≤ (s.reg 7).toNat)
    (hpc : s.pc.toNat + 4 * rs.length ≤ 255) :
    ∃ t, execAll (pushesThenPops rs) s = .next t ∧ Balanced (4 * rs.length) s t := by
  induction rs generalizing s with
  | nil => exact ⟨s, rfl, fun _ => rfl, ⟨rfl, rfl⟩, rfl, rfl, rfl, fun _ _ => rfl⟩
  | cons r rs ih =>
    rw [List.length_cons] at hsp hpc
    have hz : s.reg 7 ≠ 0 := by bv_omega
    have hp : s.pc.toNat ≤ 253 := by omega
    obtain ⟨u, eu, hu⟩ := ih (afterPush r s) (by rw [afterPush_reg, if_pos rfl]; bv_omega)
      (by rw [afterPush_pc r hp]; omega)
    obtain ⟨t, et, ht⟩ := exec_pop_balanced hz (by omega) hu
    refine ⟨t, ?_, ht⟩
    simp only [pushesThenPops_cons, execAll, exec_push_eq_afterPush hz hp, execAll_append eu, et]

/-! ## The obligations of the register and stack family -/

/-- Settles O32: at the fetched state LDI either faults at 253 or writes its register. -/
theorem ldiStep : Obligations.LdiStep := by
  unfold Obligations.LdiStep
  intro s hs
  refine ⟨⟨operandRangeFaults_of_at (o := .ldi) hs, op1IndexFaults_of_at (o := .ldi) hs rfl⟩, fun a ha => ?_⟩
  have hstep (hp : s.pc.toNat ≤ 253) : step s = exec (.ldi (s.byteAt 1) (s.byteAt 2)) s.fetch :=
    step_of_opcode (o := .ldi) hs.1 hs.2 (Nat.add_le_add_right hp 2)
  refine ⟨fun hp => ?_, fun hp => ?_⟩
  · exact stepFaults_of_enterFault ((hstep (by omega)).trans (exec_ldi_at_253 ha hp))
  · exact ⟨_, (hstep (by omega)).trans (exec_ldi_of_le ha hp), hs.1, rfl, State.reg_setReg_same _ _ _,
      fun r hr => State.reg_setReg_other _ _ _ _ (List.ne_of_not_mem_cons hr),
      toNat_add_of_le (k := 3) (Nat.add_le_add_right hp 3), rfl, rfl, fun _ => rfl⟩

/-- Settles O33: at the fetched state PRN either faults at 254 or appends its register. -/
theorem prnStep : Obligations.PrnStep := by
  unfold Obligations.PrnStep
  intro s hs
  refine ⟨⟨operandRangeFaults_of_at (o := .prn) hs, op1IndexFaults_of_at (o := .prn) hs rfl⟩, fun a ha => ?_⟩
  have hstep (hp : s.pc.toNat ≤ 254) : step s = exec (.prn (s.byteAt 1)) s.fetch :=
    step_of_opcode (o := .prn) hs.1 hs.2 (Nat.add_le_add_right hp 1)
  refine ⟨fun hp => ?_, fun hp => ?_⟩
  · exact stepFaults_of_enterFault ((hstep (by omega)).trans (exec_prn_at_254 ha hp))
  · exact ⟨_, (hstep (by omega)).trans (exec_prn_of_le ha hp), hs.1, rfl, rfl, rfl,
      toNat_add_of_le (k := 2) (Nat.add_le_add_right hp 2), rfl, fun _ => rfl⟩

/-- Settles O34: PUSH faults for SP = 0, then for the PC, and else stores at SP - 1 the register as it reads after SP
was decremented. -/
theorem pushStep : Obligations.PushStep := by
  unfold Obligations.PushStep
  intro s hs
  refine ⟨⟨operandRangeFaults_of_at (o := .push) hs, op1IndexFaults_of_at (o := .push) hs rfl⟩, fun a ha hp => ?_⟩
  have hstep : step s = exec (.push (s.byteAt 1)) s.fetch :=
    step_of_opcode (o := .push) hs.1 hs.2 (Nat.add_le_add_right hp 1)
  refine ⟨fun hz => ?_, fun hz hp => ?_, fun hz hp => ?_⟩
  · exact stepFaults_of_enterFault (hstep.trans (exec_push_of_zero ha hz))
  · exact stepFaults_of_enterFault (hstep.trans (exec_push_at_254 ha hz hp))
  · refine ⟨_, hstep.trans (exec_push_of_ne ha hz (Nat.add_le_add_right hp 2)), hs.1, rfl, ?_⟩
    simp only [State.setPc_reg, State.store_reg, State.reg_setReg_same, fetch_reg]
    exact ⟨by bv_omega, fun r hr => State.reg_setReg_other _ _ _ _ (List.ne_of_not_mem_cons hr),
      Memory.read_write_same _ _ _, fun c hc => Memory.read_write_other _ _ _ _ hc,
      toNat_add_of_le (k := 2) (Nat.add_le_add_right hp 2), rfl, rfl⟩

/-- Settles O35: POP faults for the value it cannot increment, then for the PC, and else writes its register and then
SP, which wins where they are one. -/
theorem popStep : Obligations.PopStep := by
  unfold Obligations.PopStep
  intro s hs
  refine ⟨⟨operandRangeFaults_of_at (o := .pop) hs, op1IndexFaults_of_at (o := .pop) hs rfl⟩, fun a ha hp v hv => ?_⟩
  have hstep : step s = exec (.pop (s.byteAt 1)) s.fetch :=
    step_of_opcode (o := .pop) hs.1 hs.2 (Nat.add_le_add_right hp 1)
  refine ⟨fun h => ?_, fun h hp => ?_, fun h hp => ?_⟩
  · exact stepFaults_of_enterFault (hstep.trans (exec_pop_of_255 ha hv h))
  · exact stepFaults_of_enterFault (hstep.trans (exec_pop_at_254 ha hv h hp))
  · refine ⟨_, hstep.trans (exec_pop_of_ne ha hv h hp), hs.1, rfl, fun h7 => ?_, ?_, fun r hr => ?_, fun _ => rfl,
      toNat_add_of_le (k := 2) (Nat.add_le_add_right hp 2), rfl, rfl⟩
    · simp [State.reg_setReg, h7, State.load]
    · simp only [State.setPc_reg, State.reg_setReg_same]
      bv_omega
    · obtain ⟨hra, hr7⟩ : r ≠ a ∧ r ≠ 7 := by simpa using hr
      exact reg_setReg_setReg_other hra hr7

/-- Settles O54: the two storing effects, and a fault entry keeps everything. -/
theorem storingFrame : Obligations.StoringFrame := by
  unfold Obligations.StoringFrame
  intro ra i hi s t e
  obtain h | ⟨r, rfl⟩ := exec_inv e
  · simp only [List.mem_cons, List.not_mem_nil, or_false] at hi
    obtain rfl | rfl := hi
    · cases h
      exact ⟨fun r h7 _ => State.reg_setReg_other _ _ _ _ h7, rfl, rfl,
        fun c hc => Memory.read_write_other _ _ _ _ hc, ⟨rfl, rfl, rfl⟩, .inl ⟨rfl, rfl⟩⟩
    · cases h
      exact ⟨fun r h7 h6 => reg_setReg_setReg_other (h6 rfl) h7, rfl, rfl,
        fun c hc => Memory.read_write_other _ _ _ _ hc, ⟨rfl, rfl, rfl⟩, .inl ⟨rfl, rfl⟩⟩
  · exact ⟨fun _ _ _ => rfl, rfl, rfl, fun _ _ => rfl, ⟨rfl, rfl, rfl⟩, .inr ⟨_, _, faultTaken_enterFault s r⟩⟩

/-- Settles O55: the two popping effects, and a fault entry keeps everything. -/
theorem poppingFrame : Obligations.PoppingFrame := by
  unfold Obligations.PoppingFrame
  intro ra i hi s t e
  obtain h | ⟨r, rfl⟩ := exec_inv e
  · simp only [List.mem_cons, List.not_mem_nil, or_false] at hi
    obtain rfl | rfl := hi
    · cases h with
      | pop ha _ _ _ =>
        exact ⟨fun r h7 hra _ => reg_setReg_setReg_other (fun hr => hra rfl (hr ▸ ha.symm)) h7, rfl, rfl, fun _ => rfl,
          ⟨rfl, rfl, rfl⟩, .inl ⟨rfl, rfl⟩⟩
    · cases h
      exact ⟨fun r h7 _ h6 => reg_setReg_setReg_other (h6 rfl) h7, rfl, rfl, fun _ => rfl, ⟨rfl, rfl, rfl⟩,
        .inl ⟨rfl, rfl⟩⟩
  · exact ⟨fun _ _ _ _ => rfl, rfl, rfl, fun _ => rfl, ⟨rfl, rfl, rfl⟩, .inr ⟨_, _, faultTaken_enterFault s r⟩⟩

/-- Settles O56: the pushes and pops are balanced. -/
theorem pushesThenPopsRestoreRegisters : Obligations.PushesThenPopsRestoreRegisters := by
  unfold Obligations.PushesThenPopsRestoreRegisters
  intro rs s hsp hpc
  obtain ⟨t, e, h⟩ := execAll_pushesThenPops rs s hsp hpc
  exact ⟨t, e, h.reg, h.status, h.fl, h.out⟩

/-- Settles O48: the completed PUSH and POP; of POP SP's two writes to SP the second stands. -/
theorem pushPopComplete : Obligations.PushPopComplete := by
  unfold Obligations.PushPopComplete
  intro s ra a ha hp
  refine ⟨fun hz => exec_push_of_ne ha hz (Nat.add_le_add_right hp 2), fun h7 h => ?_, fun h7 h => ?_⟩
  · exact exec_pop_of_ne ha (if_neg h7).symm h hp
  · subst h7
    rw [exec_pop_of_ne ha (if_pos rfl).symm h hp]
    simp [State.setReg, State.setPc, State.load]

end Sys2Proof.Machine
end

section
/-! PROOFS. The ALU family (42_alu.md): each result as a word, the two-register forms as whole steps, their frame, and
the laws of one and two ALU instructions. -/

namespace Sys2Proof.Machine

/-! ## The results as 8-bit words (42_alu.md R132) -/

@[simp] theorem aluAdd_eq (x y : Byte) : aluAdd x y = x + y := (BitVec.add_def x y).symm

/-- The exact difference may be negative; its remainder mod 256 is never (42_alu.md R134). -/
theorem aluSub_toInt (x y : Byte) : ((aluSub x y).toNat : Int) = (x.toNat - y.toNat) % 256 := by
  rw [aluSub, BitVec.toNat_ofInt]
  exact Int.toNat_of_nonneg (Int.emod_nonneg _ (by decide))

@[simp] theorem aluSub_eq (x y : Byte) : aluSub x y = x - y := by
  have h := aluSub_toInt x y
  bv_omega

@[simp] theorem aluMul_eq (x y : Byte) : aluMul x y = x * y := by
  apply BitVec.eq_of_toNat_eq
  rw [aluMul, BitVec.toNat_ofNat, BitVec.toNat_mul]

@[simp] theorem aluDiv_eq (x y : Byte) : aluDiv x y = x / y := BitVec.udiv_def.symm

@[simp] theorem aluMod_eq (x y : Byte) : aluMod x y = x % y := BitVec.umod_def.symm

@[simp] theorem aluAnd_eq (x y : Byte) : aluAnd x y = x &&& y := rfl

@[simp] theorem aluOr_eq (x y : Byte) : aluOr x y = x ||| y := rfl

@[simp] theorem aluXor_eq (x y : Byte) : aluXor x y = x ^^^ y := rfl

@[simp] theorem aluShl_eq (x y : Byte) : aluShl x y = x <<< y.toNat := by
  apply BitVec.eq_of_toNat_eq
  rw [aluShl, BitVec.toNat_ofNat, BitVec.toNat_shiftLeft]

@[simp] theorem aluShr_eq (x y : Byte) : aluShr x y = x >>> y.toNat := by
  apply BitVec.eq_of_toNat_eq
  rw [aluShr, BitVec.toNat_ofNat, BitVec.toNat_ushiftRight]
  exact Nat.mod_eq_of_lt (Nat.lt_of_le_of_lt (Nat.shiftRight_le _ _) x.isLt)

theorem aluShl_toNat (x y : Byte) : (aluShl x y).toNat = x.toNat * 2 ^ y.toNat % 256 := by
  rw [aluShl_eq, BitVec.toNat_shiftLeft, Nat.shiftLeft_eq]

theorem aluShr_toNat (x y : Byte) : (aluShr x y).toNat = x.toNat / 2 ^ y.toNat := by
  rw [aluShr_eq, BitVec.toNat_ushiftRight, Nat.shiftRight_eq_div_pow]

/-- The word comparisons are those of the unsigned values (42_alu.md R144). -/
theorem cmpFlags_eq (x y : Byte) : cmpFlags x y = if x < y then 0b100 else if y < x then 0b010 else 0b001 := rfl

/-! ## The two-register forms by their handler (30_encoding.md R73) -/

/-- Opcode `o` is of format F2RR and its instruction has this handler. -/
structure IsF2RR (o : Opcode) (h : Reg → Reg → State → Result) : Prop where
  count   : operandCount (opcodeByte o) = 2
  exec_eq : ∀ ra rb s, exec (assemble o ra rb) s = formF2RR ra rb h s

/-- The opcodes that write a result `f` and cannot fault but for the PC. -/
inductive WriteOp : Opcode → (Byte → Byte → Byte) → Prop
  | add : WriteOp .add aluAdd
  | sub : WriteOp .sub aluSub
  | mul : WriteOp .mul aluMul
  | and : WriteOp .and aluAnd
  | or  : WriteOp .or aluOr
  | xor : WriteOp .xor aluXor
  | shl : WriteOp .shl aluShl
  | shr : WriteOp .shr aluShr

/-- The opcodes that write a result `f` where the divisor is not 0. -/
inductive DivideOp : Opcode → (Byte → Byte → Byte) → Prop
  | div : DivideOp .div aluDiv
  | mod : DivideOp .mod aluMod

/-- The handler of CMP. -/
def cmpHandler (a b : Reg) (s : State) : Result := advance 2 (s.setFl (cmpFlags (s.reg a) (s.reg b)))

variable {o : Opcode} {f : Byte → Byte → Byte}

theorem WriteOp.isF2RR (ho : WriteOp o f) : IsF2RR o (aluWrite f) := by
  cases ho <;> exact ⟨rfl, fun _ _ _ => rfl⟩

theorem DivideOp.isF2RR (ho : DivideOp o f) : IsF2RR o (aluDivide f) := by
  cases ho <;> exact ⟨rfl, fun _ _ _ => rfl⟩

theorem isF2RR_cmp : IsF2RR .cmp cmpHandler := ⟨rfl, fun _ _ _ => rfl⟩

/-! ## Where the handlers complete and where they fault -/

/-- A register index as FAULT_INFO keeps its value (60_exceptions.md R183). -/
theorem toNat_info_of_reg (r : Reg) : (BitVec.ofNat 9 r.val).toNat = r.val := by
  rw [BitVec.toNat_ofNat]
  omega

theorem aluDivide_of_zero {a b : Reg} {s : State} (hz : s.reg b = 0) :
    aluDivide f a b s = .error ⟨.divideByZero, BitVec.ofNat 9 b.val⟩ := if_pos hz

theorem aluDivide_of_ne {a b : Reg} {s : State} (hz : s.reg b ≠ 0) : aluDivide f a b s = aluWrite f a b s :=
  if_neg hz

namespace IsF2RR

variable {h : Reg → Reg → State → Result} {s u : State} {ra rb : Byte} {a b : Reg}

theorem exec_of_regs (ho : IsF2RR o h) (ha : ra.toNat = a.val) (hb : rb.toNat = b.val) :
    exec (assemble o ra rb) s = commit s (h a b s) := by
  rw [ho.exec_eq, formF2RR_of_eq ha hb]

/-- A handler that has only the advance left faults where that passes 255. -/
theorem exec_at_253 (ho : IsF2RR o h) (ha : ra.toNat = a.val) (hb : rb.toNat = b.val)
    (hu : h a b s = advance 2 u) (hpc : u.pc = s.pc) (hp : s.pc.toNat = 253) :
    exec (assemble o ra rb) s = .next (s.enterFault ⟨.pcRange, 256⟩) := by
  rw [ho.exec_of_regs ha hb, hu, advance_of_eq_256 (by rw [hpc, hp])]
  rfl

theorem exec_of_le (ho : IsF2RR o h) (ha : ra.toNat = a.val) (hb : rb.toNat = b.val)
    (hu : h a b s = advance 2 u) (hpc : u.pc = s.pc) (hp : s.pc.toNat ≤ 252) :
    exec (assemble o ra rb) s = .next (u.setPc (s.pc + 3)) := by
  rw [ho.exec_of_regs ha hb, hu, advance_of_le (by rw [hpc]; exact Nat.add_le_add_right hp 3), hpc]
  rfl

/-! As whole steps, from the opcode at the PC. -/

theorem step_eq (ho : IsF2RR o h) (hs : s.At (opcodeByte o)) (hp : s.pc.toNat + 2 ≤ 255) :
    step s = exec (assemble o (s.byteAt 1) (s.byteAt 2)) s.fetch :=
  step_of_opcode hs.1 hs.2 (ho.count ▸ hp)

/-- The faults before the handler: a missing operand byte, then op1, then op2 (40_cycle.md R101, R102). -/
theorem faults (ho : IsF2RR o h) (hs : s.At (opcodeByte o)) : F2RRFaults s := by
  refine ⟨ho.count ▸ operandRangeFaults_of_at hs, fun hn hgt => ?_, fun hn hle hgt => ?_⟩
  · have hf := stepFaults_of_enterFault
      ((ho.step_eq hs hn).trans ((ho.exec_eq _ _ _).trans (formF2RR_of_gt hgt h)))
    rwa [toNat_info_of_byte] at hf
  · obtain ⟨a, ha⟩ := (exists_reg_or_gt (s.byteAt 1)).resolve_right (Nat.not_lt_of_le hle)
    have hf := stepFaults_of_enterFault
      ((ho.step_eq hs hn).trans ((ho.exec_eq _ _ _).trans (formF2RR_of_eq_gt ha hgt h)))
    rwa [toNat_info_of_byte] at hf

/-- A handler that has written `v` to its first register and has only the advance left: the PC_RANGE fault, or the
completed step, in which `v` meets `R`. -/
theorem write_step {v : Byte} {R : Byte → Prop} (ho : IsF2RR o h) (hs : s.At (opcodeByte o))
    (ha : (s.byteAt 1).toNat = a.val) (hb : (s.byteAt 2).toNat = b.val)
    (hu : h a b s.fetch = advance 2 (s.fetch.setReg a v)) (hv : R v) :
    (s.pc.toNat = 253 → StepFaults s .pcRange 256) ∧
    (s.pc.toNat ≤ 252 → StepCompletes s fun t => R (t.reg a) ∧ RegsKeptBut [a] s t ∧
      t.pc.toNat = s.pc.toNat + 3 ∧ t.fl = s.fl ∧ t.out = s.out ∧ MemKept s t) := by
  refine ⟨fun hp => ?_, fun hp => ?_⟩
  · exact stepFaults_of_enterFault ((ho.step_eq hs (by omega)).trans (ho.exec_at_253 ha hb hu rfl hp))
  · refine ⟨_, (ho.step_eq hs (by omega)).trans (ho.exec_of_le ha hb hu rfl hp), hs.1, rfl, ?_,
      fun r hr => State.reg_setReg_other _ _ _ _ (List.ne_of_not_mem_cons hr),
      toNat_add_of_le (k := 3) (Nat.add_le_add_right hp 3), rfl, rfl, fun _ => rfl⟩
    rwa [State.setPc_reg, State.reg_setReg_same]

end IsF2RR

section

variable {s : State} {ra rb : Byte} {a b : Reg} (ha : ra.toNat = a.val) (hb : rb.toNat = b.val)
include ha hb

/-- `v` is the result in the form the caller wants it. -/
theorem WriteOp.exec_of_le {v : Byte} (ho : WriteOp o f) (hp : s.pc.toNat ≤ 252) (hv : f (s.reg a) (s.reg b) = v) :
    exec (assemble o ra rb) s = .next ((s.setReg a v).setPc (s.pc + 3)) :=
  ho.isF2RR.exec_of_le ha hb (u := s.setReg a v) (hv ▸ rfl) rfl hp

theorem DivideOp.exec_of_le {v : Byte} (ho : DivideOp o f) (hp : s.pc.toNat ≤ 252) (hz : s.reg b ≠ 0)
    (hv : f (s.reg a) (s.reg b) = v) : exec (assemble o ra rb) s = .next ((s.setReg a v).setPc (s.pc + 3)) :=
  ho.isF2RR.exec_of_le ha hb (u := s.setReg a v) (hv ▸ aluDivide_of_ne hz) rfl hp

theorem DivideOp.exec_of_zero (ho : DivideOp o f) (hz : s.reg b = 0) :
    exec (assemble o ra rb) s = .next (s.enterFault ⟨.divideByZero, BitVec.ofNat 9 b.val⟩) := by
  rw [ho.isF2RR.exec_of_regs ha hb, aluDivide_of_zero hz]
  rfl

theorem DivideOp.execFaults_of_zero (ho : DivideOp o f) (hz : s.reg b = 0) :
    ExecFaults (assemble o ra rb) s .divideByZero b.val := by
  have hf := faultTaken_enterFault s ⟨.divideByZero, BitVec.ofNat 9 b.val⟩
  rw [toNat_info_of_reg] at hf
  exact ⟨_, ho.exec_of_zero ha hb hz, hf⟩

theorem exec_cmp_of_le (hp : s.pc.toNat ≤ 252) :
    exec (.cmp ra rb) s = .next ((s.setFl (cmpFlags (s.reg a) (s.reg b))).setPc (s.pc + 3)) :=
  isF2RR_cmp.exec_of_le ha hb (u := s.setFl _) rfl rfl hp

end

theorem exec_not_at_254 {s : State} {ra : Byte} {a : Reg} (ha : ra.toNat = a.val) (hp : s.pc.toNat = 254) :
    exec (.not ra) s = .next (s.enterFault ⟨.pcRange, 256⟩) := by
  rw [exec, execNot, formF1R_of_eq ha, thenAdvance_ok, advance_of_eq_256 (by exact congrArg (· + 2) hp)]
  rfl

/-! ## The obligations of the ALU family: whole steps -/

/-- Settles O36: the three results are the integer ones reduced mod 256. -/
theorem addSubMulStep : Obligations.AddSubMulStep := by
  unfold Obligations.AddSubMulStep
  intro row hrow s hs
  obtain ⟨o, f, ho, hop, hf⟩ : ∃ o f, WriteOp o f ∧ row.1 = opcodeByte o ∧
      ∀ x y, ((f x y).toNat : Int) = row.2 x.toNat y.toNat := by
    simp only [List.mem_cons, List.not_mem_nil, or_false] at hrow
    obtain rfl | rfl | rfl := hrow
    · exact ⟨_, _, .add, rfl, fun x y => by simp⟩
    · exact ⟨_, _, .sub, rfl, aluSub_toInt⟩
    · exact ⟨_, _, .mul, rfl, fun x y => by simp⟩
  rw [hop] at hs
  exact ⟨ho.isF2RR.faults hs, fun a b ha hb => ho.isF2RR.write_step
    (R := fun v => (v.toNat : Int) = row.2 (s.reg a).toNat (s.reg b).toNat) hs ha hb rfl (hf _ _)⟩

/-- Settles O37: a divisor of 0 faults before the advance does. -/
theorem divModStep : Obligations.DivModStep := by
  unfold Obligations.DivModStep
  intro row hrow s hs
  obtain ⟨o, f, ho, hop, hf⟩ : ∃ o f, DivideOp o f ∧ row.1 = opcodeByte o ∧
      ∀ x y, (f x y).toNat = row.2 x.toNat y.toNat := by
    simp only [List.mem_cons, List.not_mem_nil, or_false] at hrow
    obtain rfl | rfl := hrow
    · exact ⟨_, _, .div, rfl, fun x y => by simp⟩
    · exact ⟨_, _, .mod, rfl, fun x y => by simp⟩
  rw [hop] at hs
  refine ⟨ho.isF2RR.faults hs, fun a b ha hb hp => ⟨fun hz => ?_, forall_and.mp fun hz => ?_⟩⟩
  · have hfault := stepFaults_of_enterFault
      ((ho.isF2RR.step_eq hs (by omega)).trans (ho.exec_of_zero (s := s.fetch) ha hb hz))
    rwa [toNat_info_of_reg] at hfault
  · exact ho.isF2RR.write_step (R := fun v => v.toNat = row.2 (s.reg a).toNat (s.reg b).toNat) hs ha hb
      (aluDivide_of_ne hz) (hf _ _)

/-- Settles O38: the word operations act on each bit alone. -/
theorem andOrXorStep : Obligations.AndOrXorStep := by
  unfold Obligations.AndOrXorStep
  intro row hrow s hs
  obtain ⟨o, f, ho, hop, hf⟩ : ∃ o f, WriteOp o f ∧ row.1 = opcodeByte o ∧
      ∀ x y k, (f x y).getLsbD k = row.2 (x.getLsbD k) (y.getLsbD k) := by
    simp only [List.mem_cons, List.not_mem_nil, or_false] at hrow
    obtain rfl | rfl | rfl := hrow
    · exact ⟨_, _, .and, rfl, fun _ _ _ => BitVec.getLsbD_and⟩
    · exact ⟨_, _, .or, rfl, fun _ _ _ => BitVec.getLsbD_or⟩
    · exact ⟨_, _, .xor, rfl, fun _ _ _ => BitVec.getLsbD_xor⟩
  rw [hop] at hs
  exact ⟨ho.isF2RR.faults hs, fun a b ha hb =>
    ho.isF2RR.write_step (R := fun v => ∀ k < 8, v.getLsbD k = row.2 ((s.reg a).getLsbD k) ((s.reg b).getLsbD k))
      hs ha hb rfl fun k _ => hf _ _ k⟩

/-- Settles O39: at the fetched state NOT either faults at 254 or writes the complement. -/
theorem notStep : Obligations.NotStep := by
  unfold Obligations.NotStep
  intro s hs
  refine ⟨⟨operandRangeFaults_of_at (o := .not) hs, op1IndexFaults_of_at (o := .not) hs rfl⟩, fun a ha => ?_⟩
  have hstep (hp : s.pc.toNat ≤ 254) : step s = exec (.not (s.byteAt 1)) s.fetch :=
    step_of_opcode (o := .not) hs.1 hs.2 (Nat.add_le_add_right hp 1)
  refine ⟨fun hp => ?_, fun hp => ?_⟩
  · exact stepFaults_of_enterFault ((hstep (by omega)).trans (exec_not_at_254 ha hp))
  · have hexec := exec_not_of_le (s := s.fetch) ha hp
    rw [aluNot_eq_complement] at hexec
    exact ⟨_, (hstep (by omega)).trans hexec, hs.1, rfl, State.reg_setReg_same _ _ _,
      (congrArg BitVec.toNat (State.reg_setReg_same _ _ _)).trans BitVec.toNat_not,
      fun r hr => State.reg_setReg_other _ _ _ _ (List.ne_of_not_mem_cons hr),
      toNat_add_of_le (k := 2) (Nat.add_le_add_right hp 2), rfl, rfl, fun _ => rfl⟩

/-- Settles O40: the amount is the whole register, so 8 or more shifts every bit out. -/
theorem shiftStep : Obligations.ShiftStep := by
  unfold Obligations.ShiftStep
  intro row hrow s hs
  obtain ⟨o, f, ho, hop, hf, hbig⟩ : ∃ o f, WriteOp o f ∧ row.1 = opcodeByte o ∧
      (∀ x y, (f x y).toNat = row.2 x.toNat y.toNat) ∧ ∀ x y : Byte, y.toNat ≥ 8 → f x y = 0 := by
    simp only [List.mem_cons, List.not_mem_nil, or_false] at hrow
    obtain rfl | rfl := hrow
    · exact ⟨_, _, .shl, rfl, aluShl_toNat, fun x y hy => (aluShl_eq x y).trans (BitVec.shiftLeft_eq_zero hy)⟩
    · exact ⟨_, _, .shr, rfl, aluShr_toNat, fun x y hy => (aluShr_eq x y).trans (BitVec.ushiftRight_eq_zero hy)⟩
  rw [hop] at hs
  refine ⟨ho.isF2RR.faults hs, fun a b ha hb => ?_⟩
  simpa only [and_assoc] using ho.isF2RR.write_step (R := fun v => v.toNat = row.2 (s.reg a).toNat (s.reg b).toNat ∧
    ((s.reg b).toNat ≥ 8 → v = 0)) hs ha hb rfl ⟨hf _ _, hbig _ _⟩

/-- Settles O41: the three cases of the comparison exclude each other. -/
theorem cmpStep : Obligations.CmpStep := by
  unfold Obligations.CmpStep
  intro s hs
  refine ⟨isF2RR_cmp.faults hs, fun a b ha hb => ⟨fun hp => ?_, fun hp => ?_⟩⟩
  · exact stepFaults_of_enterFault
      ((isF2RR_cmp.step_eq hs (by omega)).trans (isF2RR_cmp.exec_at_253 (u := s.fetch.setFl _) ha hb rfl rfl hp))
  · refine ⟨_, (isF2RR_cmp.step_eq hs (by omega)).trans (exec_cmp_of_le (s := s.fetch) ha hb hp), hs.1, rfl,
      fun hlt => ?_, fun hgt => ?_, fun heq => ?_, rfl, toNat_add_of_le (k := 3) (Nat.add_le_add_right hp 3), rfl,
      fun _ => rfl⟩
    · exact if_pos hlt
    · exact (if_neg (Nat.lt_asymm hgt)).trans (if_pos hgt)
    · exact (if_neg (Nat.not_lt_of_le heq.ge)).trans (if_neg (Nat.not_lt_of_le heq.le))

/-! ## The frame of the forms that write the register of op1 (42_alu.md R131, 41_register_stack.md R119) -/

/-- A completed effect of these forms writes the register of op1 and the PC, nothing else. -/
theorem Effect.setReg_setPc_of_registerDestination {s t : State} {i : Instr} {ra rb : Byte} (h : Effect s i t)
    (hi : i ∈ [Instr.ldi ra rb, .add ra rb, .sub ra rb, .mul ra rb, .div ra rb, .mod ra rb, .and ra rb,
      .or ra rb, .xor ra rb, .not ra, .shl ra rb, .shr ra rb]) :
    ∃ (a : Reg) (v p : Byte), ra.toNat = a.val ∧ t = (s.setReg a v).setPc p := by
  simp only [List.mem_cons, List.not_mem_nil, or_false] at hi
  obtain rfl | rfl | rfl | rfl | rfl | rfl | rfl | rfl | rfl | rfl | rfl | rfl := hi <;> cases h <;>
    exact ⟨_, _, _, ‹ra.toNat = _›, rfl⟩

/-- Settles O52: the completed effect writes one register, and a fault entry keeps everything. -/
theorem registerDestinationFrame : Obligations.RegisterDestinationFrame := by
  unfold Obligations.RegisterDestinationFrame
  intro ra rb i hi s t e
  obtain h | ⟨r, rfl⟩ := exec_inv e
  · obtain ⟨a, v, p, ha, rfl⟩ := h.setReg_setPc_of_registerDestination hi
    exact ⟨fun r hr => State.reg_setReg_other _ _ _ _ fun hra => hr (hra ▸ ha.symm), rfl, rfl, fun _ => rfl,
      ⟨rfl, rfl, rfl⟩, .inl ⟨rfl, rfl⟩⟩
  · exact ⟨fun _ _ => rfl, rfl, rfl, fun _ => rfl, ⟨rfl, rfl, rfl⟩, .inr ⟨_, _, faultTaken_enterFault s r⟩⟩

/-! ## Laws of one and of two ALU instructions -/

/-- What a completed write leaves in its register, with no fault taken. -/
theorem exists_result_of_exec {i : Instr} {s : State} {a : Reg} {v p : Byte} {n : Nat}
    (e : exec i s = .next ((s.setReg a v).setPc p)) (hv : v.toNat = n) :
    ∃ t, exec i s = .next t ∧ StatusKept s t ∧ (t.reg a).toNat = n :=
  ⟨_, e, ⟨rfl, rfl⟩, by rwa [State.setPc_reg, State.reg_setReg_same]⟩

/-- The table of 42_alu.md R145 for a register shifted left by itself. -/
theorem aluShl_self (x : Byte) : (aluShl x x).toNat = [0, 2, 8, 24, 64, 160, 128, 128].getD x.toNat 0 := by
  have htable : ∀ n < 8, n * 2 ^ n % 256 = [0, 2, 8, 24, 64, 160, 128, 128].getD n 0 := by decide
  by_cases hx : x.toNat < 8
  · exact (aluShl_toNat x x).trans (htable _ hx)
  · rw [aluShl_eq, BitVec.shiftLeft_eq_zero (Nat.le_of_not_lt hx), List.getD_eq_default _ _ (Nat.le_of_not_lt hx)]
    rfl

/-- A number is below 2 to its own power, so a register shifted right by itself is 0 (42_alu.md R145). -/
theorem aluShr_self (x : Byte) : (aluShr x x).toNat = 0 := by
  rw [aluShr_toNat, Nat.div_eq_of_lt Nat.lt_two_pow_self]

/-- Settles O58: each result at equal operands, and the one fault. -/
theorem sameRegisterResults : Obligations.SameRegisterResults := by
  unfold Obligations.SameRegisterResults
  intro s ra a v ha hp hv
  subst hv
  refine ⟨fun row hrow => ?_, fun hz row hrow => ?_, fun hz => ?_, ?_⟩
  · obtain ⟨o, f, ho, hi, hf⟩ : ∃ o f, WriteOp o f ∧ row.1 = assemble o ra ra ∧
        (f (s.reg a) (s.reg a)).toNat = row.2 := by
      simp only [List.mem_cons, List.not_mem_nil, or_false] at hrow
      obtain rfl | rfl | rfl | rfl | rfl | rfl | rfl | rfl := hrow
      · exact ⟨_, _, .add, rfl, by simp [Nat.two_mul]⟩
      · exact ⟨_, _, .sub, rfl, by simp⟩
      · exact ⟨_, _, .mul, rfl, by simp⟩
      · exact ⟨_, _, .and, rfl, by simp⟩
      · exact ⟨_, _, .or, rfl, by simp⟩
      · exact ⟨_, _, .xor, rfl, by simp⟩
      · exact ⟨_, _, .shl, rfl, aluShl_self _⟩
      · exact ⟨_, _, .shr, rfl, aluShr_self _⟩
    exact exists_result_of_exec (hi ▸ ho.exec_of_le ha ha hp rfl) hf
  · have hz : s.reg a ≠ 0 := by bv_omega
    obtain ⟨o, f, ho, hi, hf⟩ : ∃ o f, DivideOp o f ∧ row.1 = assemble o ra ra ∧
        (f (s.reg a) (s.reg a)).toNat = row.2 := by
      simp only [List.mem_cons, List.not_mem_nil, or_false] at hrow
      obtain rfl | rfl := hrow
      · exact ⟨_, _, .div, rfl, by simp [BitVec.udiv_self, show s.reg a ≠ 0#8 from hz]⟩
      · exact ⟨_, _, .mod, rfl, by simp⟩
    exact exists_result_of_exec (hi ▸ ho.exec_of_le ha ha hp hz rfl) hf
  · have hz : s.reg a = 0 := BitVec.eq_of_toNat_eq hz
    exact ⟨DivideOp.div.execFaults_of_zero ha ha hz, DivideOp.mod.execFaults_of_zero ha ha hz⟩
  · exact ⟨_, exec_cmp_of_le ha ha hp, ⟨rfl, rfl⟩, by simp [cmpFlags]⟩

/-- Settles O59: the division law of the natural numbers. -/
theorem quotientAndRemainderFit : Obligations.QuotientAndRemainderFit := by
  unfold Obligations.QuotientAndRemainderFit
  intro s ra rb a b ha hb hp hz
  have hpos : 0 < (s.reg b).toNat := by bv_omega
  refine ⟨_, _, DivideOp.div.exec_of_le ha hb hp hz (aluDiv_eq _ _),
    DivideOp.mod.exec_of_le ha hb hp hz (aluMod_eq _ _), ?_⟩
  simp only [State.setPc_reg, State.reg_setReg_same, BitVec.toNat_udiv, BitVec.toNat_umod]
  exact ⟨Nat.div_add_mod _ _, Nat.mod_lt _ hpos, Nat.div_le_self _ _⟩

theorem execAll_two {i j : Instr} {s t u : State} (e : exec i s = .next t) (e' : exec j t = .next u) :
    execAll [i, j] s = .next u := by
  simp only [execAll, e, e']

/-- Two ALU instructions on the same two different registers: the second sees the first's result and the same second
operand, and writes the same register. -/
theorem execAll_two_writes {o p : Opcode} {f g : Byte → Byte → Byte} {s : State} {ra rb : Byte} {a b : Reg}
    (ho : WriteOp o f) (hp : WriteOp p g) (ha : ra.toNat = a.val) (hb : rb.toNat = b.val) (hab : a ≠ b)
    (hpc : s.pc.toNat ≤ 249) :
    ∃ t, execAll [assemble o ra rb, assemble p ra rb] s = .next t ∧ StatusKept s t ∧
      t.reg a = g (f (s.reg a) (s.reg b)) (s.reg b) ∧ RegsKeptBut [a] s t := by
  refine ⟨_, execAll_two (ho.exec_of_le ha hb (by omega) rfl) (hp.exec_of_le ha hb ?_ rfl), ⟨rfl, rfl⟩, ?_,
    fun r hr => ?_⟩
  · rw [State.setPc_pc]
    bv_omega
  · simp [State.reg_setReg_other _ a b _ hab.symm]
  · have hra := List.ne_of_not_mem_cons hr
    exact reg_setReg_setReg_other (s := s) hra hra

/-- A register restored and every other kept is every register kept. -/
theorem regs_kept_of_restored {s t : State} {a : Reg} (ha : t.reg a = s.reg a) (h : RegsKeptBut [a] s t) (r : Reg) :
    t.reg r = s.reg r := by
  by_cases hr : r = a
  · rw [hr, ha]
  · exact h r (by simpa using hr)

/-- Shifting left by `n` loses the top `n` bits, and shifting back brings the others home (42_alu.md R142, R143). -/
theorem aluShr_aluShl_toNat {x y : Byte} (hy : y.toNat < 8) :
    (aluShr (aluShl x y) y).toNat = x.toNat % 2 ^ (8 - y.toNat) := by
  have hpow : 256 = 2 ^ y.toNat * 2 ^ (8 - y.toNat) := by
    rw [← Nat.pow_add, Nat.add_sub_cancel' hy.le]
  rw [aluShr_toNat, aluShl_toNat, hpow, Nat.mod_mul_right_div_self, Nat.mul_div_cancel _ (Nat.two_pow_pos _)]

/-- Settles O60: the three laws on words, carried over two instructions. -/
theorem aluUndoLaws : Obligations.AluUndoLaws := by
  unfold Obligations.AluUndoLaws
  intro s ra rb a b ha hb hab hpc
  refine ⟨?_, ?_, fun hlt => ?_⟩
  · obtain ⟨t, e, hst, hreg, hkept⟩ := execAll_two_writes .add .sub ha hb hab hpc
    exact ⟨t, e, hst, regs_kept_of_restored (by simpa [BitVec.add_sub_cancel] using hreg) hkept⟩
  · have hnext : (s.pc + 2).toNat ≤ 253 := by bv_omega
    refine ⟨_, execAll_two (exec_not_of_le ha (by omega)) (exec_not_of_le ha hnext), ⟨rfl, rfl⟩,
      regs_kept_of_restored (a := a) ?_ fun r hr => ?_⟩
    · simp [aluNot_eq_complement]
    · have hra := List.ne_of_not_mem_cons hr
      exact reg_setReg_setReg_other (s := s) hra hra
  · obtain ⟨t, e, hst, hreg, hkept⟩ := execAll_two_writes .shl .shr ha hb hab hpc
    exact ⟨t, e, hst, hreg ▸ aluShr_aluShl_toNat hlt, hkept⟩

/-! ## Where the two-register forms complete, with their whole next state -/

/-- Settles O49: each of the eight completes with its result as a word. -/
theorem binaryAluComplete : Obligations.BinaryAluComplete := by
  unfold Obligations.BinaryAluComplete
  intro s ra rb a b ha hb hp
  exact ⟨WriteOp.add.exec_of_le ha hb hp (aluAdd_eq _ _), WriteOp.sub.exec_of_le ha hb hp (aluSub_eq _ _),
    WriteOp.mul.exec_of_le ha hb hp (aluMul_eq _ _), WriteOp.and.exec_of_le ha hb hp (aluAnd_eq _ _),
    WriteOp.or.exec_of_le ha hb hp (aluOr_eq _ _), WriteOp.xor.exec_of_le ha hb hp (aluXor_eq _ _),
    WriteOp.shl.exec_of_le ha hb hp (aluShl_eq _ _), WriteOp.shr.exec_of_le ha hb hp (aluShr_eq _ _)⟩

/-- Settles O50: DIV and MOD complete past their divisor test, CMP always. -/
theorem divModCmpComplete : Obligations.DivModCmpComplete := by
  unfold Obligations.DivModCmpComplete
  intro s ra rb a b ha hb hp
  refine ⟨fun hz => ⟨?_, ?_⟩, ?_⟩
  · exact DivideOp.div.exec_of_le ha hb hp hz (aluDiv_eq _ _)
  · exact DivideOp.mod.exec_of_le ha hb hp hz (aluMod_eq _ _)
  · rw [exec_cmp_of_le ha hb hp, cmpFlags_eq]
    rfl

end Sys2Proof.Machine
end

section
/-! PROOFS. The control-flow family (43_control_flow.md): CALL, RET, JMP, JEQ and JNE as whole steps, their completed
states, and a CALL undone by a RET. -/

namespace Sys2Proof.Machine

/-! ## The one-register format as a whole step (30_encoding.md R73) -/

/-- Opcode `o` stands for a one-register instruction whose handler is `h`. -/
structure IsF1R (o : Opcode) (h : Reg → State → Result) : Prop where
  count   : operandCount (opcodeByte o) = 1
  regs    : ∀ ra rb : Byte, (assemble o ra rb).regBytes = [ra]
  exec_eq : ∀ (ra rb : Byte) (s : State), exec (assemble o ra rb) s = formF1R ra h s

namespace IsF1R

variable {o : Opcode} {h : Reg → State → Result} {s t : State} {a : Reg} {r : Raise}

theorem exec_of_ok {ra rb : Byte} (ho : IsF1R o h) (ha : ra.toNat = a.val) (e : h a s = .ok t) :
    exec (assemble o ra rb) s = .next t := by
  rw [ho.exec_eq, formF1R_of_eq ha, e, commit_ok]

/-- The faults before the handler (40_cycle.md R101, R102). -/
theorem faults (ho : IsF1R o h) (hs : s.At (opcodeByte o)) : F1RFaults s :=
  ⟨ho.count ▸ operandRangeFaults_of_at hs, ho.count ▸ op1IndexFaults_of_at hs (ho.regs _ _)⟩

/-! From here the operand byte is there and names a register: the step answers what the handler answers. -/

variable (ho : IsF1R o h) (hs : s.At (opcodeByte o)) (hp : s.pc.toNat ≤ 254) (ha : (s.byteAt 1).toNat = a.val)
include ho hs hp ha

theorem step_eq : step s = commit s.fetch (h a s.fetch) := by
  rw [step_of_opcode hs.1 hs.2 (ho.count ▸ Nat.add_le_add_right hp 1), ho.exec_eq, formF1R_of_eq ha]

theorem step_of_ok (e : h a s.fetch = .ok t) : step s = .next t := by
  rw [ho.step_eq hs hp ha, e, commit_ok]

theorem stepFaults_of_error (e : h a s.fetch = .error r) : StepFaults s r.cause r.info.toNat :=
  stepFaults_of_enterFault (by rw [ho.step_eq hs hp ha, e, commit_error])

end IsF1R

/-! ## CALL: its faults in order, and its completed state (43_control_flow.md R161) -/

theorem isF1R_call : IsF1R .call call := ⟨rfl, fun _ _ => rfl, fun _ _ _ => rfl⟩

/-- The state after a CALL that completes: the target is read after the push, so R6 reads as the return address and R7
as the new SP. -/
def afterCall (a : Reg) (s : State) : State :=
  (((s.setReg 6 (s.pc + 2)).setReg 7 (s.reg 7 - 1)).store (s.reg 7 - 1) (s.pc + 2)).setPc
    (if a = 6 then s.pc + 2 else if a = 7 then s.reg 7 - 1 else s.reg a)

theorem call_at_254 {a : Reg} {s : State} (hp : s.pc.toNat = 254) : call a s = .error ⟨.pcRange, 256⟩ := by
  rw [call, pcOrRange_of_gt (by omega), hp]
  rfl

theorem call_of_zero {a : Reg} {s : State} (hp : s.pc.toNat ≤ 253) (hz : s.reg 7 = 0) :
    call a s = .error ⟨.stackPushRange, 0⟩ := by
  have hlink (v : Byte) : (s.setReg linkReg v).reg 7 = 0 := (State.reg_setReg_other _ _ _ _ (by decide)).trans hz
  simp only [call, pcOrRange_of_le (Nat.add_le_add_right hp 2), push_of_zero (hlink _)]

theorem call_of_ne {a : Reg} {s : State} (hp : s.pc.toNat ≤ 253) (hz : s.reg 7 ≠ 0) :
    call a s = .ok (afterCall a s) := by
  cases e : call a s with
  | ok t =>
    obtain ⟨-, -, rfl⟩ := call_inv e
    rfl
  | error r =>
    obtain ⟨hgt, -⟩ | ⟨h0, -⟩ := call_error e
    · omega
    · exact absurd h0 hz

@[simp] theorem afterCall_reg_six (a : Reg) (s : State) : (afterCall a s).reg 6 = s.pc + 2 :=
  (State.reg_setReg_other _ _ _ _ (by decide)).trans (State.reg_setReg_same _ _ _)

@[simp] theorem afterCall_reg_seven (a : Reg) (s : State) : (afterCall a s).reg 7 = s.reg 7 - 1 :=
  State.reg_setReg_same _ _ _

theorem afterCall_reg_other {a q : Reg} {s : State} (h6 : q ≠ 6) (h7 : q ≠ 7) : (afterCall a s).reg q = s.reg q :=
  reg_setReg_setReg_other h6 h7

/-- The target is the value the operand register has after the push. -/
theorem afterCall_pc (a : Reg) (s : State) : (afterCall a s).pc = (afterCall a s).reg a := by
  by_cases h6 : a = 6
  · subst h6
    exact (afterCall_reg_six 6 s).symm
  · by_cases h7 : a = 7
    · subst h7
      exact (afterCall_reg_seven 7 s).symm
    · rw [afterCall_reg_other h6 h7]
      exact (if_neg h6).trans (if_neg h7)

@[simp] theorem afterCall_read_stored (a : Reg) (s : State) :
    (afterCall a s).mem.read (s.reg 7 - 1).toNat = s.pc + 2 :=
  Memory.read_write_same _ _ _

/-! ## RET (43_control_flow.md R162) -/

/-- The state after a RET that completes. -/
def afterRet (s : State) : State :=
  ((s.setReg 6 (s.load (s.reg 7))).setReg 7 (s.reg 7 + 1)).setPc (s.load (s.reg 7))

theorem ret_of_255 {s : State} (h : s.reg 7 = 255) : ret s = .error ⟨.stackPopRange, 255⟩ := by
  rw [ret, pop_of_other (by decide), if_pos h]

theorem ret_of_ne {s : State} (h : s.reg 7 ≠ 255) : ret s = .ok (afterRet s) := by
  cases e : ret s with
  | ok t =>
    obtain ⟨-, rfl⟩ := ret_inv e
    rfl
  | error r =>
    rw [ret, pop_of_other (by decide), if_neg h] at e
    cases e

@[simp] theorem afterRet_reg_six (s : State) : (afterRet s).reg 6 = s.load (s.reg 7) :=
  (State.reg_setReg_other _ _ _ _ (by decide)).trans (State.reg_setReg_same _ _ _)

@[simp] theorem afterRet_reg_seven (s : State) : (afterRet s).reg 7 = s.reg 7 + 1 :=
  State.reg_setReg_same _ _ _

/-- RET takes no operand, so its handler runs at every PC. -/
theorem step_of_ret {s : State} (hs : s.At 0x11) : step s = commit s.fetch (ret s.fetch) :=
  step_of_opcode (o := .ret) hs.1 hs.2 (Nat.le_of_lt_succ s.pc.isLt)

theorem step_of_ret_of_ne {s : State} (hs : s.At 0x11) (h : s.reg 7 ≠ 255) : step s = .next (afterRet s.fetch) := by
  rw [step_of_ret hs, ret_of_ne (s := s.fetch) h, commit_ok]

/-! ## JMP, JEQ and JNE (43_control_flow.md R163 to R165) -/

/-- The handler of JMP. -/
def jump (a : Reg) (s : State) : Result := .ok (s.setPc (s.reg a))

theorem isF1R_jmp : IsF1R .jmp jump := ⟨rfl, fun _ _ => rfl, fun _ _ _ => rfl⟩

/-- The two conditional jumps, each with the value of FL.E for which it is taken. -/
inductive BranchOp : Opcode → Bool → Prop
  | jeq : BranchOp .jeq true
  | jne : BranchOp .jne false

/-- The handler of the conditional jump that is taken where FL.E is `e`. -/
def branchWhere (e : Bool) (a : Reg) (s : State) : Result := branch (s.flE == e) a s

theorem branchWhere_true : branchWhere true = fun a s => branch s.flE a s := by
  funext a s
  rw [branchWhere, beq_true]

theorem branchWhere_false : branchWhere false = fun a s => branch (!s.flE) a s := by
  funext a s
  rw [branchWhere, beq_false]

theorem BranchOp.isF1R {o : Opcode} {e : Bool} (ho : BranchOp o e) : IsF1R o (branchWhere e) := by
  cases ho with
  | jeq => exact ⟨rfl, fun _ _ => rfl, fun _ _ _ => branchWhere_true ▸ rfl⟩
  | jne => exact ⟨rfl, fun _ _ => rfl, fun _ _ _ => branchWhere_false ▸ rfl⟩

section

variable {e : Bool} {a : Reg} {s : State}

theorem branchWhere_of_eq (he : s.fl.getLsbD 0 = e) : branchWhere e a s = .ok (s.setPc (s.reg a)) :=
  if_pos (beq_iff_eq.mpr he)

theorem branchWhere_of_ne (he : s.fl.getLsbD 0 ≠ e) : branchWhere e a s = advance 1 s :=
  if_neg fun h => he (beq_iff_eq.mp h)

theorem branchWhere_past (he : s.fl.getLsbD 0 ≠ e) (hp : s.pc.toNat ≤ 253) :
    branchWhere e a s = .ok (s.setPc (s.pc + 2)) :=
  (branchWhere_of_ne he).trans (advance_of_le (Nat.add_le_add_right hp 2))

theorem branchWhere_past_at_254 (he : s.fl.getLsbD 0 ≠ e) (hp : s.pc.toNat = 254) :
    branchWhere e a s = .error ⟨.pcRange, 256⟩ :=
  (branchWhere_of_ne he).trans (advance_of_eq_256 (congrArg (· + 2) hp))

end

/-! ## The obligations of the control-flow family -/

/-- Settles O42: CALL faults for the return address, then for SP = 0, and else reads its target from the state it has
written. -/
theorem callStep : Obligations.CallStep := by
  unfold Obligations.CallStep
  intro s hs
  refine ⟨isF1R_call.faults hs, fun a ha => ⟨fun hp => ?_, fun hp hz => ?_, fun hp hz => ?_⟩⟩
  · exact isF1R_call.stepFaults_of_error hs (by omega) ha (call_at_254 hp)
  · exact isF1R_call.stepFaults_of_error hs (by omega) ha (call_of_zero hp hz)
  · refine ⟨_, isF1R_call.step_of_ok hs (by omega) ha (call_of_ne hp hz), hs.1, rfl, ?_, ?_, fun q hq => ?_, ?_,
      fun c hc => Memory.read_write_other _ _ _ _ hc, afterCall_pc a s.fetch, rfl, rfl⟩
    · rw [afterCall_reg_six]
      exact toNat_add_of_le (k := 2) (Nat.add_le_add_right hp 2)
    · rw [afterCall_reg_seven, fetch_reg]
      bv_omega
    · obtain ⟨h6, h7⟩ : q ≠ 6 ∧ q ≠ 7 := by simpa using hq
      exact afterCall_reg_other h6 h7
    · rw [afterCall_reg_seven, afterCall_reg_six, afterCall_read_stored]

/-- Settles O43: RET's only fault is that of its pop. -/
theorem retStep : Obligations.RetStep := by
  unfold Obligations.RetStep
  intro s hs
  refine ⟨fun h => ?_, fun h => ?_⟩
  · exact stepFaults_of_enterFault (by rw [step_of_ret hs, ret_of_255 (s := s.fetch) h, commit_error])
  · refine ⟨_, step_of_ret_of_ne hs h, hs.1, rfl, afterRet_reg_six _, ?_, fun q hq => ?_, rfl, rfl, rfl, fun _ => rfl⟩
    · rw [afterRet_reg_seven, fetch_reg]
      bv_omega
    · obtain ⟨h6, h7⟩ : q ≠ 6 ∧ q ≠ 7 := by simpa using hq
      exact reg_setReg_setReg_other h6 h7

/-- Settles O44: JMP's handler has no fault of its own. -/
theorem jmpStep : Obligations.JmpStep := by
  unfold Obligations.JmpStep
  intro s hs
  exact ⟨isF1R_jmp.faults hs, fun a ha hp =>
    ⟨_, isF1R_jmp.step_of_ok hs hp ha rfl, hs.1, rfl, rfl, rfl, rfl, rfl, fun _ => rfl⟩⟩

/-- Settles O45: only the path that is not taken advances, and so can fault. -/
theorem branchStep : Obligations.BranchStep := by
  unfold Obligations.BranchStep
  intro row hrow s hs
  obtain ⟨o, ho, hop⟩ : ∃ o, BranchOp o row.2 ∧ row.1 = opcodeByte o := by
    simp only [List.mem_cons, List.not_mem_nil, or_false] at hrow
    obtain rfl | rfl := hrow
    · exact ⟨_, .jeq, rfl⟩
    · exact ⟨_, .jne, rfl⟩
  rw [hop] at hs
  refine ⟨ho.isF1R.faults hs, fun a ha hp => ⟨fun he => ?_, fun he hp => ?_, fun he hp => ?_⟩⟩
  · exact ⟨_, ho.isF1R.step_of_ok hs hp ha (branchWhere_of_eq he), hs.1, rfl, rfl, rfl, rfl, rfl, fun _ => rfl⟩
  · exact ho.isF1R.stepFaults_of_error hs (by omega) ha (branchWhere_past_at_254 he hp)
  · exact ⟨_, ho.isF1R.step_of_ok hs (by omega) ha (branchWhere_past he hp), hs.1, rfl,
      toNat_add_of_le (k := 2) (Nat.add_le_add_right hp 2), rfl, rfl, rfl, fun _ => rfl⟩

/-- Settles O57: the RET finds SP one below where it was, so not at 255, and there the return address. -/
theorem callThenRetReturns : Obligations.CallThenRetReturns := by
  unfold Obligations.CallThenRetReturns
  intro s t hs hop hp hz e hret
  obtain ⟨a, ha⟩ := (exists_reg_or_gt (s.byteAt 1)).resolve_right (Nat.not_lt_of_le hop)
  have hcall : step s = .next (afterCall a s.fetch) := isF1R_call.step_of_ok hs (by omega) ha (call_of_ne hp hz)
  obtain rfl : afterCall a s.fetch = t := Host.Outcome.next.inj (hcall.symm.trans e)
  have hsp : (afterCall a s.fetch).reg 7 = s.reg 7 - 1 := afterCall_reg_seven a s.fetch
  have hstored : (afterCall a s.fetch).mem.read (s.reg 7 - 1).toNat = s.pc + 2 := afterCall_read_stored a s.fetch
  have hload : (afterCall a s.fetch).load ((afterCall a s.fetch).reg 7) = s.pc + 2 := by
    rw [hsp]
    exact hstored
  have hreturn : (s.pc + 2).toNat = s.pc.toNat + 2 := toNat_add_of_le (k := 2) (Nat.add_le_add_right hp 2)
  refine ⟨_, step_of_ret_of_ne ⟨hs.1, hret⟩ ?_, hs.1, ?_, ?_, ?_, ?_⟩
  · rw [hsp]
    bv_omega
  · exact (congrArg BitVec.toNat hload).trans hreturn
  · rw [afterRet_reg_seven, fetch_reg, hsp, BitVec.sub_add_cancel]
  · rw [afterRet_reg_six]
    exact (congrArg BitVec.toNat hload).trans hreturn
  · exact (congrArg BitVec.toNat hstored).trans hreturn

/-- Settles O51: the handlers' completed states, JEQ and JNE as the two conditional jumps. -/
theorem controlFlowCompletes : Obligations.ControlFlowCompletes := by
  unfold Obligations.ControlFlowCompletes
  intro s ra a ha
  have hbranch {o : Opcode} {e : Bool} (ho : BranchOp o e) (he : s.fl.getLsbD 0 = e) :
      exec (assemble o ra 0) s = .next (s.setPc (s.reg a)) := ho.isF1R.exec_of_ok ha (branchWhere_of_eq he)
  have hpast {o : Opcode} {e : Bool} (ho : BranchOp o e) (he : s.fl.getLsbD 0 ≠ e) (hp : s.pc.toNat ≤ 253) :
      exec (assemble o ra 0) s = .next (s.setPc (s.pc + 2)) := ho.isF1R.exec_of_ok ha (branchWhere_past he hp)
  refine ⟨fun hp hz => isF1R_call.exec_of_ok (rb := 0) ha (call_of_ne hp hz), fun h => ?_,
    isF1R_jmp.exec_of_ok (rb := 0) ha rfl, hbranch .jeq, hbranch .jne,
    fun he => hpast .jeq (ne_of_eq_of_ne he (by decide)), fun he => hpast .jne (ne_of_eq_of_ne he (by decide))⟩
  rw [exec, execRet, formF0_eq, ret_of_ne h]
  rfl

end Sys2Proof.Machine
end

section
/-! PROOFS. The exceptions family (60_exceptions.md): the first fault of a step by R184's order, FAULT_INFO by cause,
the two ends, and the codes of FAULT_CAUSE. -/

namespace Sys2Proof.Machine

/-! ## The fault an answer shows (60_exceptions.md R182) -/

/-- The fault that an outcome shows: cause and FAULT_INFO of a FAULTED state's record. -/
def shownFault : Host.Outcome State Fault Refusal → Option (FaultCause × Nat)
  | .next t => if t.runState = .faulted then some (t.fault.cause, t.fault.info.toNat) else none
  | .fault _ | .refused _ => none

/-- The fault that a handler's result raises. -/
def raisedFault : Result → Option (FaultCause × Nat)
  | .ok _ => none
  | .error r => some (r.cause, r.info.toNat)

@[simp] theorem raisedFault_ok (t : State) : raisedFault (.ok t) = none := rfl
@[simp] theorem raisedFault_error (r : Raise) : raisedFault (.error r) = some (r.cause, r.info.toNat) := rfl

theorem shownFault_enterFault (s : State) (r : Raise) :
    shownFault (.next (s.enterFault r)) = some (r.cause, r.info.toNat) := rfl

theorem shownFault_of_not_faulted {t : State} (ht : t.runState ≠ .faulted) : shownFault (.next t) = none := if_neg ht

/-- Commit takes exactly the fault that the handler raises. -/
theorem shownFault_commit {h : Result} (s : State) (hh : HandlerResult h) :
    shownFault (commit s h) = raisedFault h := by
  cases hh with
  | ok ht => exact shownFault_of_not_faulted ht
  | error _ => rfl

/-! ## What each handler raises, in its statement order (60_exceptions.md R184, items 4 and 5) -/

/-- PC_RANGE where the sequential advance past `n` operand bytes would pass 255. -/
def advanceFault (n : Nat) (s : State) : Option (FaultCause × Nat) :=
  if s.pc.toNat + n + 1 > 255 then some (.pcRange, s.pc.toNat + n + 1) else none

/-- A PC that has just passed 255 fits FAULT_INFO. -/
theorem toNat_info_of_pc {p : Byte} {k : Nat} (hk : k ≤ 256) :
    (BitVec.ofNat 9 (p.toNat + k)).toNat = p.toNat + k := by
  rw [BitVec.toNat_ofNat]
  omega

theorem raisedFault_advance {n : Nat} (hn : n ≤ 2) (s : State) : raisedFault (advance n s) = advanceFault n s := by
  rw [advanceFault]
  split
  · rw [advance_of_gt ‹_›, raisedFault_error, Nat.add_assoc, toNat_info_of_pc (by omega)]
  · rw [advance_of_le (by omega), raisedFault_ok]

/-- A handler's own fault comes before that of the advance. -/
theorem raisedFault_thenAdvance {n : Nat} (hn : n ≤ 2) {h : Result} {s : State}
    (hpc : ∀ t, h = .ok t → t.pc = s.pc) : raisedFault (thenAdvance n h) = (raisedFault h).or (advanceFault n s) := by
  cases h with
  | ok t =>
    rw [thenAdvance_ok, raisedFault_advance hn, advanceFault, hpc t rfl]
    rfl
  | error r => rfl

section

variable (s : State) (a b : Reg)

theorem raisedFault_aluWrite (f : Byte → Byte → Byte) : raisedFault (aluWrite f a b s) = advanceFault 2 s :=
  raisedFault_advance (by decide) _

theorem raisedFault_aluDivide (f : Byte → Byte → Byte) : raisedFault (aluDivide f a b s) =
    (if s.reg b = 0 then some (.divideByZero, b.val) else none).or (advanceFault 2 s) := by
  split
  · rw [aluDivide_of_zero ‹_›, raisedFault_error, toNat_info_of_reg]
    rfl
  · rw [aluDivide_of_ne ‹_›, raisedFault_aluWrite]
    rfl

theorem raisedFault_push : raisedFault (push a s) = if s.reg 7 = 0 then some (.stackPushRange, 0) else none := by
  split
  · rw [push_of_zero ‹_›]
    rfl
  · rw [push_of_ne ‹_›]
    rfl

theorem raisedFault_pop : raisedFault (pop a s) =
    if (if a = 7 then s.load (s.reg 7) else s.reg 7) = 255 then some (.stackPopRange, 255) else none := by
  rw [pop_eq rfl, apply_ite raisedFault]
  rfl

theorem raisedFault_ret : raisedFault (ret s) = if s.reg 7 = 255 then some (.stackPopRange, 255) else none := by
  split
  · rw [ret_of_255 ‹_›]
    rfl
  · rw [ret_of_ne ‹_›]
    rfl

theorem raisedFault_call : raisedFault (call a s) = if s.pc.toNat + 2 > 255 then some (.pcRange, s.pc.toNat + 2)
    else if s.reg 7 = 0 then some (.stackPushRange, 0) else none := by
  split
  · rw [call, pcOrRange_of_gt ‹_›, raisedFault_error, toNat_info_of_pc (by decide)]
  · split
    · rw [call_of_zero (by omega) ‹_›]
      rfl
    · rw [call_of_ne (by omega) ‹_›]
      rfl

theorem raisedFault_branch (taken : Bool) :
    raisedFault (branch taken a s) = if taken = true then none else advanceFault 1 s := by
  cases taken with
  | true => rfl
  | false => exact raisedFault_advance (by decide) s

end

/-! ## The first fault, stage by stage (60_exceptions.md R184) -/

/-- Items 4 and 5 of R184: the handler's own fault, then that of the sequential advance where the opcode has P = 0. -/
def ownFault (o : Opcode) (s : State) : Option (FaultCause × Nat) :=
  (handlerFault s).or (if pcControl (opcodeByte o) = false then advanceFault (operandCount (opcodeByte o)) s else none)

/-- The table's row of an opcode: n, P and how many operands name registers. -/
theorem find?_opcodeRows (o : Opcode) : opcodeRows.find? (fun row => row.1 == opcodeByte o) =
    some (opcodeByte o, operandCount (opcodeByte o), pcControl (opcodeByte o), (assemble o 0 0).regBytes.length) := by
  cases o <;> decide

theorem firstFault_of_illegal {s : State} (hd : decodeOpcode (s.byteAt 0) = none) :
    firstFault s = some (.illegalOpcode, (s.byteAt 0).toNat) := by
  have hrow := row_ne_of_decodeOpcode_none hd
  have hhlt : s.byteAt 0 ≠ 0x01 := fun h => hrow _ (List.mem_cons_self ..) h.symm
  have hfind : opcodeRows.find? (fun row => row.1 == s.byteAt 0) = none :=
    List.find?_eq_none.mpr fun row hmem => by simpa using hrow row hmem
  simp only [firstFault, hfind, if_neg hhlt]

theorem firstFault_of_hlt {s : State} (hb : s.byteAt 0 = 0x01) : firstFault s = none := if_pos hb

/-- The register operands are the first ones, as many as the table says. -/
theorem regBytes_assemble (o : Opcode) (a b : Byte) :
    (assemble o a b).regBytes = [a, b].take (assemble o 0 0).regBytes.length := by
  cases o <;> rfl

/-- R184's two conditions on the register operands look for the first bad one. -/
theorem firstBadReg_take {α : Type} (n : Nat) (a b : Byte) (f : Byte → α) (x : α) :
    (if n ≥ 1 ∧ a.toNat > 7 then f a else if n ≥ 2 ∧ b.toNat > 7 then f b else x) =
      (firstBadReg ([a, b].take n)).elim x f := by
  match n with
  | 0 => rfl
  | 1 => by_cases ha : a.toNat > 7 <;> simp [firstBadReg, ha]
  | n + 2 => by_cases ha : a.toNat > 7 <;> by_cases hb : b.toNat > 7 <;> simp [firstBadReg, ha, hb]

section

variable {s : State} {o : Opcode} (hb : s.byteAt 0 = opcodeByte o)
include hb

theorem firstFault_of_short (hn : s.pc.toNat + operandCount (opcodeByte o) > 255) :
    firstFault s = some (.operandRange, 256) := by
  have hhlt : opcodeByte o ≠ 0x01 := by
    intro h
    rw [h] at hn
    exact absurd hn (Nat.not_lt_of_ge (Nat.le_of_lt_succ s.pc.isLt))
  simp only [firstFault, hb, find?_opcodeRows, if_neg hhlt, if_pos hn]

/-- Once the operands are fetched: the first register operand byte above 7, or else the instruction's own fault. -/
theorem firstFault_of_opcode (hhlt : o ≠ .hlt) (hn : s.pc.toNat + operandCount (opcodeByte o) ≤ 255) :
    firstFault s = (firstBadReg (assemble o (s.byteAt 1) (s.byteAt 2)).regBytes).elim (ownFault o s)
      fun b => some (.registerIndex, b.toNat) := by
  have hne : opcodeByte o ≠ 0x01 := fun h => hhlt (opcodeByte_injective (p := .hlt) h)
  rw [regBytes_assemble, ← firstBadReg_take, ownFault, advanceFault, ← ite_and]
  simp only [firstFault, hb, find?_opcodeRows, if_neg hne, if_neg (Nat.not_lt_of_le hn)]
  cases handlerFault s <;> rfl

end

/-! ## The instruction takes its own fault (60_exceptions.md R184, items 4 and 5) -/

theorem regNamed_of_eq {s : State} {b : Byte} {r : Reg} (h : b.toNat = r.val) : s.regNamed b = s.reg r :=
  congrArg s.reg (Fin.ext ((congrArg (· % 8) h).trans (Nat.mod_eq_of_lt r.isLt)))

theorem eq_seven_iff_of_eq {b : Byte} {r : Reg} (h : b.toNat = r.val) : b = 7 ↔ r = 7 := by
  rw [← BitVec.toNat_inj, h, Fin.ext_iff]
  rfl

/-- The result `h` of the handler of `o` at `s` is what items 4 and 5 of R184 ask for. -/
structure OwnFaultRaised (o : Opcode) (s : State) (h : Result) : Prop where
  answers : HandlerResult h
  raised  : raisedFault h = ownFault o s

/-- A handler with P = 1, which has no sequential advance. -/
theorem OwnFaultRaised.of_jump {o : Opcode} {s : State} {h : Result} (hp : pcControl (opcodeByte o) = true)
    (hh : HandlerResult h) (hf : raisedFault h = handlerFault s) : OwnFaultRaised o s h where
  answers := hh
  raised  := by rw [hf, ownFault, hp, if_neg (by decide), Option.or_none]

/-- A handler with P = 0: its own work, which keeps the PC, and then the sequential advance. -/
theorem OwnFaultRaised.of_thenAdvance {o : Opcode} {s : State} {h : Result} (hp : pcControl (opcodeByte o) = false)
    (hh : HandlerResult h) (hpc : ∀ t, h = .ok t → t.pc = s.pc) (hf : raisedFault h = handlerFault s) :
    OwnFaultRaised o s (thenAdvance (operandCount (opcodeByte o)) h) where
  answers := thenAdvance_handlerResult _ hh
  raised  := by rw [raisedFault_thenAdvance (operandCount_opcodeByte_le o) hpc, hf, ownFault, if_pos hp]

/-- The common case: the handler's work `t` cannot fault. -/
theorem OwnFaultRaised.of_advance {o : Opcode} {s t : State} (hp : pcControl (opcodeByte o) = false)
    (ht : t.runState ≠ .faulted) (hpc : t.pc = s.pc) (hf : handlerFault s = none) :
    OwnFaultRaised o s (advance (operandCount (opcodeByte o)) t) :=
  .of_thenAdvance hp (.ok ht) (fun _ e => Except.ok.inj e ▸ hpc) hf.symm

section

variable {s : State} {o : Opcode} (hr : s.runState ≠ .faulted) (h0 : s.byteAt 0 = opcodeByte o)
include hr h0

theorem WriteOp.ownFaultRaised {f : Byte → Byte → Byte} (ho : WriteOp o f) (a b : Reg) :
    OwnFaultRaised o s (aluWrite f a b s) := by
  have hf : handlerFault s = none := by cases ho <;> (rw [handlerFault, h0]; rfl)
  cases ho <;> exact .of_advance rfl hr rfl hf

theorem DivideOp.ownFaultRaised {f : Byte → Byte → Byte} (ho : DivideOp o f) (a : Reg) {b : Reg}
    (hb : (s.byteAt 2).toNat = b.val) : OwnFaultRaised o s (aluDivide f a b s) := by
  have hf : handlerFault s = if s.reg b = 0 then some (.divideByZero, b.val) else none := by
    rw [← regNamed_of_eq hb, ← hb]
    cases ho <;> (rw [handlerFault, h0]; rfl)
  refine ⟨aluDivide_handlerResult hr f a b, ?_⟩
  rw [raisedFault_aluDivide, ownFault, hf]
  cases ho <;> rfl

theorem BranchOp.ownFaultRaised {e : Bool} (ho : BranchOp o e) (a : Reg) : OwnFaultRaised o s (branchWhere e a s) := by
  have hf : handlerFault s = if s.flE = !e then advanceFault 1 s else none := by
    rw [advanceFault, ← ite_and]
    cases ho <;> (rw [handlerFault, h0]; rfl)
  have hraised : raisedFault (branchWhere e a s) = handlerFault s := by
    rw [branchWhere, raisedFault_branch, hf]
    cases s.flE <;> cases e <;> rfl
  cases ho <;> exact .of_jump rfl (branch_handlerResult hr _ a) hraised

end

section

variable {s : State} (hr : s.runState ≠ .faulted)
include hr

theorem ownFaultRaised_push (h0 : s.byteAt 0 = opcodeByte .push) (a : Reg) :
    OwnFaultRaised .push s (thenAdvance 1 (push a s)) := by
  refine .of_thenAdvance rfl (push_handlerResult hr a) (fun _ => push_pc) ?_
  rw [raisedFault_push, handlerFault, h0]
  rfl

/-- POP R7 increments the byte it has popped into SP (41_register_stack.md R117). -/
theorem ownFaultRaised_pop (h0 : s.byteAt 0 = opcodeByte .pop) {a : Reg} (ha : (s.byteAt 1).toNat = a.val) :
    OwnFaultRaised .pop s (thenAdvance 1 (pop a s)) := by
  refine .of_thenAdvance rfl (pop_handlerResult hr a) (fun _ => pop_pc) ?_
  simp only [raisedFault_pop, ← eq_seven_iff_of_eq ha, handlerFault, h0]
  rfl

theorem ownFaultRaised_call (h0 : s.byteAt 0 = opcodeByte .call) (a : Reg) : OwnFaultRaised .call s (call a s) := by
  refine .of_jump rfl (call_handlerResult hr a) ?_
  rw [raisedFault_call, handlerFault, h0]
  rfl

theorem ownFaultRaised_ret (h0 : s.byteAt 0 = opcodeByte .ret) : OwnFaultRaised .ret s (ret s) := by
  refine .of_jump rfl (ret_handlerResult hr) ?_
  rw [raisedFault_ret, handlerFault, h0]
  rfl

end

/-! Commit makes the handler's fault the instruction's. -/

theorem isF1R_push : IsF1R .push fun a s => thenAdvance 1 (push a s) := ⟨rfl, fun _ _ => rfl, fun _ _ _ => rfl⟩

theorem isF1R_pop : IsF1R .pop fun a s => thenAdvance 1 (pop a s) := ⟨rfl, fun _ _ => rfl, fun _ _ _ => rfl⟩

section

variable {s : State} {ra rb : Byte} {a b : Reg} (ha : ra.toNat = a.val)
include ha

theorem IsF1R.shownFault_exec {o : Opcode} {h : Reg → State → Result} (ho : IsF1R o h)
    (hown : OwnFaultRaised o s (h a s)) : shownFault (exec (assemble o ra rb) s) = ownFault o s := by
  rw [ho.exec_eq, formF1R_of_eq ha, shownFault_commit s hown.answers, hown.raised]

theorem IsF2RR.shownFault_exec {o : Opcode} {h : Reg → Reg → State → Result} (ho : IsF2RR o h)
    (hb : rb.toNat = b.val) (hown : OwnFaultRaised o s (h a b s)) :
    shownFault (exec (assemble o ra rb) s) = ownFault o s := by
  rw [ho.exec_of_regs ha hb, shownFault_commit s hown.answers, hown.raised]

end

/-- An instruction whose register operands name registers shows exactly its own fault. -/
theorem shownFault_exec {s : State} {o : Opcode} (hr : s.runState ≠ .faulted) (h0 : s.byteAt 0 = opcodeByte o)
    (hhlt : o ≠ .hlt) (hw : (assemble o (s.byteAt 1) (s.byteAt 2)).WellFormed) :
    shownFault (exec (assemble o (s.byteAt 1) (s.byteAt 2)) s) = ownFault o s := by
  have hreg (b : Byte) (hb : b ∈ (assemble o (s.byteAt 1) (s.byteAt 2)).regBytes) : ∃ r : Reg, b.toNat = r.val :=
    (exists_reg_or_gt b).resolve_right (Nat.not_lt_of_le (hw b hb))
  cases o with
  | hlt => exact absurd rfl hhlt
  | ret =>
    have hown := ownFaultRaised_ret hr h0
    exact (shownFault_commit s hown.answers).trans hown.raised
  | ldi =>
    obtain ⟨a, ha⟩ := hreg _ (List.mem_singleton_self _)
    have hf : handlerFault s = none := by rw [handlerFault, h0]; rfl
    have hown : OwnFaultRaised .ldi s (thenAdvance 2 (.ok (s.setReg a (s.byteAt 2)))) := .of_advance rfl hr rfl hf
    rw [assemble, exec, execLdi, formF2RI_of_eq ha, shownFault_commit s hown.answers, hown.raised]
  | prn | not =>
    obtain ⟨a, ha⟩ := hreg _ (List.mem_singleton_self _)
    have hf : handlerFault s = none := by rw [handlerFault, h0]; rfl
    exact IsF1R.shownFault_exec ha ⟨rfl, fun _ _ => rfl, fun _ _ _ => rfl⟩ (.of_advance rfl hr rfl hf)
  | push =>
    obtain ⟨a, ha⟩ := hreg _ (List.mem_singleton_self _)
    exact isF1R_push.shownFault_exec ha (ownFaultRaised_push hr h0 a)
  | pop =>
    obtain ⟨a, ha⟩ := hreg _ (List.mem_singleton_self _)
    exact isF1R_pop.shownFault_exec ha (ownFaultRaised_pop hr h0 ha)
  | call =>
    obtain ⟨a, ha⟩ := hreg _ (List.mem_singleton_self _)
    exact isF1R_call.shownFault_exec ha (ownFaultRaised_call hr h0 a)
  | jmp =>
    obtain ⟨a, ha⟩ := hreg _ (List.mem_singleton_self _)
    have hf : handlerFault s = none := by rw [handlerFault, h0]; rfl
    exact isF1R_jmp.shownFault_exec ha (.of_jump rfl (.ok hr) hf.symm)
  | jeq | jne =>
    obtain ⟨a, ha⟩ := hreg _ (List.mem_singleton_self _)
    exact (BranchOp.isF1R (by constructor)).shownFault_exec ha (BranchOp.ownFaultRaised hr h0 (by constructor) a)
  | cmp =>
    obtain ⟨a, ha⟩ := hreg _ (List.mem_cons_self ..)
    obtain ⟨b, hb⟩ := hreg _ (List.mem_cons_of_mem _ (List.mem_singleton_self _))
    have hf : handlerFault s = none := by rw [handlerFault, h0]; rfl
    exact isF2RR_cmp.shownFault_exec ha hb (.of_advance rfl hr rfl hf)
  | div | mod =>
    obtain ⟨a, ha⟩ := hreg _ (List.mem_cons_self ..)
    obtain ⟨b, hb⟩ := hreg _ (List.mem_cons_of_mem _ (List.mem_singleton_self _))
    exact (DivideOp.isF2RR (by constructor)).shownFault_exec ha hb (DivideOp.ownFaultRaised hr h0 (by constructor) a hb)
  | add | sub | mul | and | or | xor | shl | shr =>
    obtain ⟨a, ha⟩ := hreg _ (List.mem_cons_self ..)
    obtain ⟨b, hb⟩ := hreg _ (List.mem_cons_of_mem _ (List.mem_singleton_self _))
    exact (WriteOp.isF2RR (by constructor)).shownFault_exec ha hb (WriteOp.ownFaultRaised hr h0 (by constructor) a b)

/-! ## The step takes its first fault (60_exceptions.md R182, R184) -/

/-- Stage by stage: the decoder's refusal, the missing operand, HLT, the first bad register operand, the handler. -/
theorem shownFault_step {s : State} (hr : s.runState = .running) : shownFault (step s) = firstFault s := by
  cases hd : decodeOpcode (s.byteAt 0) with
  | none =>
    rw [step_of_illegal hr hd, firstFault_of_illegal hd, shownFault_enterFault, toNat_info_of_byte]
    rfl
  | some o =>
    have ho := eq_opcodeByte_of_decodeOpcode hd
    by_cases hn : s.pc.toNat + operandCount (opcodeByte o) > 255
    · rw [step_of_short hr ho hn, firstFault_of_short ho hn]
      rfl
    by_cases hhlt : o = .hlt
    · subst hhlt
      rw [step_of_hlt ⟨hr, ho⟩, firstFault_of_hlt ho, shownFault_of_not_faulted (by simp)]
    rw [step_of_opcode hr ho (by omega), firstFault_of_opcode ho hhlt (by omega)]
    cases hbad : firstBadReg (assemble o (s.byteAt 1) (s.byteAt 2)).regBytes with
    | none => exact shownFault_exec (s := s.fetch) (by simp [hr]) ho hhlt (firstBadReg_eq_none_iff.mp hbad)
    | some b =>
      rw [exec_of_firstBadReg (by simp [hr]) hbad, shownFault_enterFault, toNat_info_of_byte]
      rfl

/-- A step completes with the record kept where there is no first fault, and else enters exactly that one. -/
theorem step_completes_or_takes {s : State} (hr : s.runState = .running) :
    (firstFault s = none ∧ ∃ t, step s = .next t ∧ t.runState ≠ .faulted ∧ t.fault = s.fault) ∨
    ∃ r, firstFault s = some (r.cause, r.info.toNat) ∧ step s = .next (s.fetch.enterFault r) := by
  obtain ⟨t, e⟩ := exists_step_next hr
  rw [← shownFault_step hr, e]
  obtain ⟨o, -, h⟩ | ⟨r, rfl⟩ := step_inv hr e
  · have hnf : t.runState ≠ .faulted := h.runState_ne_faulted (by simp [hr])
    exact .inl ⟨shownFault_of_not_faulted hnf, t, rfl, hnf, h.fault_eq⟩
  · exact .inr ⟨r, shownFault_enterFault _ r, rfl⟩

/-! ## Which operand byte FAULT_INFO is (60_exceptions.md R183) -/

/-- FAULT_INFO of the two causes that report an operand byte. -/
def ReportsOperand (s : State) (f : FaultCause × Nat) : Prop :=
  (f.1 = .registerIndex → f.2 = (s.byteAt 1).toNat ∨ f.2 = (s.byteAt 2).toNat) ∧
  (f.1 = .divideByZero → f.2 = (s.byteAt 2).toNat)

theorem handlerFault_reportsOperand {s : State} {f : FaultCause × Nat} (h : handlerFault s = some f) :
    ReportsOperand s f := by
  simp only [handlerFault] at h
  split_ifs at h <;> cases h <;> simp [ReportsOperand]

theorem firstFault_reportsOperand {s : State} {f : FaultCause × Nat} (h : firstFault s = some f) :
    ReportsOperand s f := by
  rw [firstFault] at h
  split at h
  · cases h
  split at h
  · exact Option.some.inj h ▸ ⟨nofun, nofun⟩
  split at h
  · exact Option.some.inj h ▸ ⟨nofun, nofun⟩
  split at h
  · exact Option.some.inj h ▸ ⟨fun _ => .inl rfl, nofun⟩
  split at h
  · exact Option.some.inj h ▸ ⟨fun _ => .inr rfl, nofun⟩
  split at h
  · exact handlerFault_reportsOperand (Option.some.inj h ▸ ‹_›)
  split at h
  · exact Option.some.inj h ▸ ⟨nofun, nofun⟩
  · cases h

/-! ## Inputs to a block that has ended (60_exceptions.md R185, 70_reset_and_hazards.md R216) -/

theorem portLoad_of_not_idle {s : State} (hs : s.runState ≠ .idle) (a v : Byte) : portLoad a v s = s := by
  rw [portLoad]
  split
  · exact absurd ‹_› hs
  all_goals rfl

theorem portStart_of_not_idle {s : State} (hs : s.runState ≠ .idle) : portStart s = s :=
  (portStart_cases s).resolve_left fun h => hs h.1

/-- No input but RESET changes a block that is HALTED or FAULTED. -/
theorem portAct_of_ended {s : State} (hs : s.Ended) {e : PortEvent} (he : ∀ p, e ≠ .reset p) :
    portAct e s = .next s := by
  have hidle : s.runState ≠ .idle := by obtain h | h := hs <;> simp [h]
  have hrun : s.runState ≠ .running := by obtain h | h := hs <;> simp [h]
  cases e with
  | reset p => exact absurd rfl (he p)
  | load a v => exact congrArg _ (portLoad_of_not_idle hidle a v)
  | start => exact congrArg _ (portStart_of_not_idle hidle)
  | step => exact step_of_not_running hrun

/-! ## The obligations of the exceptions family -/

/-- Settles O12: the step shows exactly `firstFault`, and what a step does besides completing is to enter a fault
precisely. -/
theorem stepTakesExactlyTheFirstFault : Obligations.StepTakesExactlyTheFirstFault := by
  unfold Obligations.StepTakesExactlyTheFirstFault
  intro s hr
  obtain ⟨hnone, hstep⟩ | ⟨r, hsome, hstep⟩ := step_completes_or_takes hr
  · exact ⟨fun _ _ h => absurd (hnone.symm.trans h) nofun, fun _ => hstep⟩
  · refine ⟨fun cause info h => ?_, fun h => absurd (hsome.symm.trans h) nofun⟩
    obtain ⟨rfl, rfl⟩ := Prod.mk.inj (Option.some.inj (hsome.symm.trans h))
    exact stepFaults_of_enterFault hstep

/-- Settles O13: the record of a faulting step fits its cause, and it is that of the first fault, which says which
operand byte it reports. -/
theorem faultInfoByCause : Obligations.FaultInfoByCause := by
  unfold Obligations.FaultInfoByCause
  intro s t hr e ht
  have hfit := step_fits hr t e ht
  obtain ⟨-, u, hu, hnf, -⟩ | ⟨⟨cause, info⟩, hsome, hstep⟩ := step_completes_or_takes hr
  · exact absurd (Host.Outcome.next.inj (e.symm.trans hu) ▸ ht) hnf
  obtain rfl := Host.Outcome.next.inj (e.symm.trans hstep)
  obtain ⟨hregister, hdivisor⟩ := firstFault_reportsOperand hsome
  cases cause with
  | noFault => exact hfit
  | illegalOpcode => exact hfit.1
  | operandRange | stackPushRange | stackPopRange | pcRange => exact hfit
  | registerIndex =>
    refine ⟨hfit.1, ?_⟩
    obtain h | h := hregister rfl
    · exact ⟨1, .inl rfl, h⟩
    · exact ⟨2, .inr rfl, h⟩
  | divideByZero =>
    obtain ⟨r, hindex, hz⟩ := hfit
    exact ⟨hdivisor rfl, r, hindex.symm.trans (hdivisor rfl), hz⟩

/-- Settles O15: each input but RESET leaves an ended block, so any sequence of them does; RESET is by definition. -/
theorem endedStatesStayUntilReset : Obligations.EndedStatesStayUntilReset := by
  unfold Obligations.EndedStatesStayUntilReset
  exact fun s hs => ⟨fun es hes => portAll_of_fixed fun e he => portAct_of_ended hs fun p hp => hes p (hp ▸ he),
    fun p => ⟨rfl, rfl⟩⟩

/-- Settles O28: the codes, cause by cause. -/
theorem faultCauseCodes : Obligations.FaultCauseCodes := by
  unfold Obligations.FaultCauseCodes
  rfl

end Sys2Proof.Machine
end

section
/-! PROOFS. The reset and host family (70_reset_and_hazards.md): what RESET, LOAD, a loaded image and START leave, and
that the inputs keep the invariant. -/

namespace Sys2Proof.Machine

/-! ## RESET (70_reset_and_hazards.md R211, 10_state.md R40) -/

/-- RESET sets SP. -/
@[simp] theorem resetWith_reg_seven (p : ResetParams) (mem : Memory) : (State.resetWith p mem).reg 7 = 0xF4 :=
  Vector.getElem_push_eq

/-- RESET draws R0 to R6 from RESET_GPR. -/
theorem resetWith_reg_of_lt (p : ResetParams) (mem : Memory) {k : Nat} (h : k < 7) :
    (State.resetWith p mem).reg ⟨k, by omega⟩ = p.gpr[k] :=
  Vector.getElem_push_lt h

/-! ## LOAD and START while IDLE (70_reset_and_hazards.md R212, R213) -/

theorem portLoad_of_idle {s : State} (hs : s.runState = .idle) (a v : Byte) : portLoad a v s = s.store a v := by
  simp only [portLoad, hs]

theorem portStart_of_idle {s : State} (hs : s.runState = .idle) : portStart s = { s with runState := .running } := by
  simp only [portStart, hs]

/-- While IDLE an image changes memory alone, by the cells it writes. -/
theorem portLoadImage_of_idle {s : State} (hs : s.runState = .idle) (image : List Byte) (a : Nat) :
    portLoadImage image a s = { s with mem := writeCells image a s.mem } := by
  induction image generalizing a s with
  | nil => rfl
  | cons v vs ih =>
    rw [portLoadImage, writeCells]
    split
    · rfl
    · have ha : (BitVec.ofNat 8 a).toNat = a := Nat.mod_eq_of_lt (by omega)
      rw [portLoad_of_idle hs, ih (s := s.store _ v) hs, State.store, ha]

theorem portLoadImage_of_not_idle {s : State} (hs : s.runState ≠ .idle) (image : List Byte) (a : Nat) :
    portLoadImage image a s = s := by
  induction image generalizing a with
  | nil => rfl
  | cons v vs ih => rw [portLoadImage, portLoad_of_not_idle hs, ih, ite_self]

/-- A cell below the first address written reads as before. -/
theorem Memory.read_writeCells_below (vs : List Byte) {a b : Nat} (h : b < a) (m : Memory) :
    (writeCells vs a m).read b = m.read b := by
  induction vs generalizing a m with
  | nil => rfl
  | cons v vs ih =>
    rw [writeCells]
    split
    · rfl
    · rw [ih (by omega), read_write_other _ _ _ _ (by omega)]

/-- Where all the bytes find a cell, the cell `k` above the first address reads the byte `k`, and past the last byte as
before. -/
theorem Memory.read_writeCells (vs : List Byte) {a : Nat} (h : a + vs.length ≤ 256) (m : Memory) (k : Nat) :
    (writeCells vs a m).read (a + k) = vs.getD k (m.read (a + k)) := by
  induction vs generalizing a k m with
  | nil => rfl
  | cons v vs ih =>
    rw [List.length_cons] at h
    rw [writeCells, if_neg (by omega)]
    cases k with
    | zero => rw [a.add_zero, read_writeCells_below _ (by omega), read_write_same, List.getD_cons_zero]
    | succ k =>
      have hk : a + (k + 1) = a + 1 + k := by omega
      rw [hk, ih (by omega), List.getD_cons_succ, read_write_other _ _ _ _ (by omega)]

/-! ## Inputs and the invariant -/

/-- In a block that has not ended, the invariant is a canonical memory and an unwritten record. -/
theorem inv_of_not_ended {s : State} (hs : ¬ s.Ended) (hm : s.mem.wf) (hz : s.fault = .zero) : s.Inv where
  memory := hm
  atHalt h := absurd (.inl h) hs
  recorded h := absurd (.inr h) hs
  unwritten _ := hz

/-- Each single input keeps the invariant. -/
theorem portAct_keeps_inv {e : PortEvent} {s t : State} (hs : s.Inv) (h : portAct e s = .next t) : t.Inv := by
  have hz : s.runState = .idle → s.fault = .zero := fun hi => hs.unwritten (by simp [hi])
  cases e with
  | reset p => exact Host.Outcome.next.inj h ▸ resetMeetsTheInvariant.1 p s.mem hs.memory
  | load a v =>
    obtain rfl := Host.Outcome.next.inj h
    by_cases hi : s.runState = .idle
    · rw [portLoad_of_idle hi]
      exact inv_of_not_ended (by simp [hi]) (Memory.wf_write hs.memory a.isLt v) (hz hi)
    · rwa [portLoad_of_not_idle hi]
  | start =>
    obtain rfl := Host.Outcome.next.inj h
    by_cases hi : s.runState = .idle
    · rw [portStart_of_idle hi]
      exact inv_of_not_ended (by simp) hs.memory (hz hi)
    · rwa [portStart_of_not_idle hi]
  | step => exact stepKeepsTheInvariant s t hs h

/-- A sequence of inputs answers what its first input answers, then what the rest does. -/
theorem portAll_cons_inv {e : PortEvent} {es : List PortEvent} {s t : State} (h : portAll (e :: es) s = .next t) :
    ∃ u, portAct e s = .next u ∧ portAll es u = .next t := by
  rw [portAll] at h
  split at h
  · exact ⟨_, ‹_›, h⟩
  all_goals cases h

/-! ## The obligations of the reset and host family -/

/-- Settles O18, by induction on the inputs: each one keeps the invariant. -/
theorem inputsKeepTheInvariant : Obligations.InputsKeepTheInvariant := by
  unfold Obligations.InputsKeepTheInvariant
  intro es s t hs h
  induction es generalizing s with
  | nil => exact Host.Outcome.next.inj h ▸ hs
  | cons e es ih =>
    obtain ⟨u, hu, hrest⟩ := portAll_cons_inv h
    exact ih u (portAct_keeps_inv hs hu) hrest

/-- Settles O24: an image is the cells it writes while IDLE, and nothing otherwise. -/
theorem loadPlacesTheImage : Obligations.LoadPlacesTheImage := by
  unfold Obligations.LoadPlacesTheImage
  intro image s hlen
  have hread (k : Nat) : (writeCells image 0 s.mem).read k = image.getD k (s.mem.read k) := by
    simpa using Memory.read_writeCells image (a := 0) (by omega) s.mem k
  refine ⟨fun hi => ?_, fun hn => portLoadImage_of_not_idle hn image 0⟩
  rw [portLoadImage_of_idle hi]
  refine ⟨fun k hk => ?_, fun a ha => ?_, rfl⟩
  · rw [hread, List.getD_eq_getElem _ _ hk]
  · rw [hread, List.getD_eq_default _ _ ha]

/-- Settles O23: the answer is `State.resetWith`, field by field. -/
theorem resetPutsEveryFieldAtItsValue : Obligations.ResetPutsEveryFieldAtItsValue := by
  unfold Obligations.ResetPutsEveryFieldAtItsValue
  intro p s
  exact ⟨State.resetWith p s.mem, rfl, rfl, resetWith_reg_seven p s.mem, fun _ => resetWith_reg_of_lt p s.mem,
    rfl, rfl, rfl, rfl, rfl, rfl, rfl, rfl, rfl⟩

/-- Settles O25: neither LOAD nor START moves the PC from its reset value, and the first step loads IR from there. -/
theorem startRunsFromAddressZero : Obligations.StartRunsFromAddressZero := by
  unfold Obligations.StartRunsFromAddressZero
  refine ⟨fun p mem image => ?_, fun s hs => congrArg _ (portStart_of_not_idle hs)⟩
  rw [portLoadImage_of_idle rfl, portAct, portStart_of_idle rfl]
  obtain ⟨t, e, hir⟩ := fetchLoadsIR
    { State.resetWith p (writeCells image 0 mem) with runState := .running } rfl
  exact ⟨_, t, rfl, rfl, rfl, e, hir⟩

/-- Settles O26: each input by its lemmas for IDLE and elsewhere, STEP and RUN by theirs outside RUNNING. -/
theorem hostInputsByRunState : Obligations.HostInputsByRunState := by
  unfold Obligations.HostInputsByRunState
  intro s
  refine ⟨fun p => rfl, fun hi => ⟨fun a v => ?_, congrArg _ (portStart_of_idle hi)⟩, fun hn => ?_, fun hr => ?_⟩
  · exact ⟨s.store a v, congrArg _ (portLoad_of_idle hi a v), Memory.read_write_same _ _ _,
      fun b hb => Memory.read_write_other _ _ b _ hb, rfl⟩
  · exact ⟨fun a v => congrArg _ (portLoad_of_not_idle hn a v), congrArg _ (portStart_of_not_idle hn)⟩
  · exact ⟨step_of_not_running hr, run_of_not_running hr⟩

end Sys2Proof.Machine
end
